-- ==== Sys2Proof/Word.lean ====
section
/-! DEFINITION. The two widths of the hardware: 8-bit data and 16-bit addresses (00_scope.md R9, R11). -/

namespace Sys2Proof

/-- An 8-bit value: a byte of memory, an 8-bit register, an 8-bit immediate (R9, R11). -/
abbrev Byte := BitVec 8

/-- A 16-bit value: an address, PC, SP, a register pair, a 16-bit immediate (R9, R14).
Its addition wraps modulo 0x10000, as R14 says of `addr + k`. -/
abbrev Word := BitVec 16

end Sys2Proof
end

