-- ==== Sys2Proof/Syntax.lean ====
section
/-! DEFINITION. The instructions of the hardware: the eight implemented opcodes and the unknown descriptor
(00_scope.md R3, 30_encoding.md R95, R96). -/

namespace Sys2Proof

/-- One constructor for each mnemonic of spec/opcode_table.json. The 248 `UNKNOWN` rows are one constructor
that carries the opcode byte, which selects among them (R96). -/
inductive Instr where
  /-- `NOP`, 0x00 (R130). -/
  | nop
  /-- `LD B,n`, 0x06 (R141). -/
  | ldBn (n : Byte)
  /-- `LD C,n`, 0x0E (R142). -/
  | ldCn (n : Byte)
  /-- `LD A,n`, 0x3E (R140). -/
  | ldAn (n : Byte)
  /-- `LD A,B`, 0x78 (R143). -/
  | ldAB
  /-- `LD A,C`, 0x79 (R144). -/
  | ldAC
  /-- `ADD A,B`, 0x80 (R150). -/
  | addAB
  /-- `JP nn`, 0xC3 (R160). -/
  | jpNn (nn : Word)
  /-- `UNKNOWN`: any of the 248 bytes of R96 (R131). -/
  | unknown (op : Byte)
deriving DecidableEq, Repr

end Sys2Proof
end

