-- ==== Sys2Proof/WellFormed.lean ====
section
/-! DEFINITION. Which terms of `Instr` stand for an instruction of the hardware (30_encoding.md R95, R96). -/

namespace Sys2Proof

/-- The eight opcode bytes of R95. -/
def implementedOpcodes : List Byte :=
  [0x00#8, 0x06#8, 0x0E#8, 0x3E#8, 0x78#8, 0x79#8, 0x80#8, 0xC3#8]

/-- The unknown descriptor is selected by exactly the bytes that R95 does not list (R96).
Every operand value of the other instructions is legal (R92, R93, R99). -/
def Instr.wellFormed : Instr → Bool
  | .nop => true
  | .ldBn _ => true
  | .ldCn _ => true
  | .ldAn _ => true
  | .ldAB => true
  | .ldAC => true
  | .addAB => true
  | .jpNn _ => true
  | .unknown op => !implementedOpcodes.contains op

end Sys2Proof
end

