-- ==== Sys2Proof/Decode.lean ====
section
/-! DEFINITION. The dispatch table, the decoder over bytes, and the encoder (10_state.md R36, R37;
30_encoding.md R90 to R99). -/

namespace Sys2Proof

/-- `{hi, lo}`: two bytes as one 16-bit value, high byte first (00_scope.md R11, R93). -/
def joinBytes (hi lo : Byte) : Word := hi ++ lo

/-- `v[15:8]` (R11). -/
def hiByte (v : Word) : Byte := v.extractLsb' 8 8

/-- `v[7:0]` (R11). -/
def loByte (v : Word) : Byte := v.extractLsb' 0 8

/-- The three formats of R91 to R93, each with the instruction it yields from its operand. -/
inductive Form where
  /-- Format `op`: the opcode alone (R91). -/
  | op (i : Instr)
  /-- Format `op_imm8`: one operand byte `n` (R92). -/
  | opImm8 (mk : Byte → Instr)
  /-- Format `op_imm16`: a little-endian operand `nn` (R93). -/
  | opImm16 (mk : Word → Instr)

/-- The number of operand bytes of a format (R91 to R93). -/
def Form.operandBytes : Form → Nat
  | .op _ => 0
  | .opImm8 _ => 1
  | .opImm16 _ => 2

/-- An Opcode Descriptor (R37). `form` stands for the handler: it names the instruction whose meaning runs. -/
structure Descriptor where
  mnemonic : String
  length : Nat
  cycles : Nat
  form : Form

/-- The unknown descriptor: one byte, four cycles (R96, R131; its mnemonic is the spec's decision D16). -/
def unknownDescriptor (op : Byte) : Descriptor := ⟨"UNKNOWN", 1, 4, .op (.unknown op)⟩

/-- `DT`: the 256-entry dispatch table (R36), row by row as R95 and R96 give it. -/
def dispatchTable (op : Byte) : Descriptor :=
  match op with
  | 0x00#8 => ⟨"NOP", 1, 4, .op .nop⟩
  | 0x06#8 => ⟨"LD B,n", 2, 8, .opImm8 .ldBn⟩
  | 0x0E#8 => ⟨"LD C,n", 2, 8, .opImm8 .ldCn⟩
  | 0x3E#8 => ⟨"LD A,n", 2, 8, .opImm8 .ldAn⟩
  | 0x78#8 => ⟨"LD A,B", 1, 4, .op .ldAB⟩
  | 0x79#8 => ⟨"LD A,C", 1, 4, .op .ldAC⟩
  | 0x80#8 => ⟨"ADD A,B", 1, 4, .op .addAB⟩
  | 0xC3#8 => ⟨"JP nn", 3, 16, .opImm16 .jpNn⟩
  | _ => unknownDescriptor op

/-- Why a list of bytes holds no whole instruction. No byte value is ever refused (R97, R99): a list can only
be too short. The machine never meets these, since it can always fetch one more byte. -/
inductive DecodeError where
  /-- The list is empty. -/
  | missingOpcode
  /-- The opcode's operand bytes are not all there. -/
  | missingOperand
deriving DecidableEq, Repr

/-- Reads one instruction from the front of a list of bytes and gives the bytes after it (R90 to R93, R99). -/
def decode : List Byte → Except DecodeError (Instr × List Byte)
  | [] => .error .missingOpcode
  | op :: rest =>
    match (dispatchTable op).form with
    | .op i => .ok (i, rest)
    | .opImm8 mk =>
      match rest with
      | n :: rest => .ok (mk n, rest)
      | [] => .error .missingOperand
    | .opImm16 mk =>
      match rest with
      | lo :: hi :: rest => .ok (mk (joinBytes hi lo), rest)
      | _ => .error .missingOperand

/-- The opcode byte of an instruction (R95, R96). -/
def Instr.opcode : Instr → Byte
  | .nop => 0x00#8
  | .ldBn _ => 0x06#8
  | .ldCn _ => 0x0E#8
  | .ldAn _ => 0x3E#8
  | .ldAB => 0x78#8
  | .ldAC => 0x79#8
  | .addAB => 0x80#8
  | .jpNn _ => 0xC3#8
  | .unknown op => op

/-- The operand bytes of an instruction, in the order they follow the opcode (R92, R93). -/
def Instr.operands : Instr → List Byte
  | .nop => []
  | .ldBn n => [n]
  | .ldCn n => [n]
  | .ldAn n => [n]
  | .ldAB => []
  | .ldAC => []
  | .addAB => []
  | .jpNn nn => [loByte nn, hiByte nn]
  | .unknown _ => []

/-- The bytes of an instruction, the first at the lowest address (R90 to R93). -/
def encode (i : Instr) : List Byte := i.opcode :: i.operands

/-- The bytes of an instruction whose bits are `w`, bit 0 the least significant bit of the first byte, as R92
and R93 number them: up to the longest instruction, the bits from `nbits` on zero. -/
def tableWordBytes (nbits w : Nat) : List Byte :=
  let v := w % 2 ^ nbits
  [BitVec.ofNat 8 v, BitVec.ofNat 8 (v / 0x100), BitVec.ofNat 8 (v / 0x10000)]

/-- The instruction the decoder reads from a word of spec/opcode_table.json. -/
def decodeTableWord (nbits w : Nat) : Option Instr :=
  match decode (tableWordBytes nbits w) with
  | .ok (i, _) => some i
  | .error _ => none

end Sys2Proof
end

