-- ==== Sys2Proof/Config.lean ====
section
/-! DEFINITION. What is fixed for the machine (00_scope.md R9), the named parameters a machine is
constructed with (R10), and the one free value the spec leaves open (20_memory.md R64). -/

namespace Sys2Proof.Config

/-- `init_regs`: the register reset variant (R10, R41, R42). `zeroed` is the default. -/
inductive InitRegs where
  | zeroed
  | postBoot
deriving DecidableEq, Repr

/-- `unknown_policy`: whether an unknown opcode is reported to the host (R10, R132). `nop` is the default.
There is no fatal policy (90_conflicts.md C3). -/
inductive UnknownPolicy where
  | nop
  | nopReport
deriving DecidableEq, Repr

/-- First address of the ROM region (R51). -/
def romBase : Nat := 0x0000
/-- Size of the ROM region, which is also the capacity of `LoadProgram` (R9, R51, R63). -/
def romSize : Nat := 0x8000
/-- First address of the working RAM (R51). -/
def wramBase : Nat := 0xC000
/-- Size of the working RAM (R9, R51). -/
def wramSize : Nat := 0x2000
/-- First address of the mirror of the working RAM (R51, R54). -/
def mirrorBase : Nat := 0xE000
/-- Size of the mirror window (R9, R51, R54). -/
def mirrorSize : Nat := 0x1E00
/-- First address of the high RAM (R51, R55). -/
def hramBase : Nat := 0xFF80
/-- Size of the high RAM (R9, R51, R55). -/
def hramSize : Nat := 0x7F

/-- What a read of an unmapped address returns (R9, R58). -/
def unmappedByte : Byte := 0xFF#8

/-- What a storage byte that the memory list does not list holds.
DESIGN CHOICE (assumption 1, unsafe): the spec gives no initial contents, they are the parameter `init_mem`
(R10, R202); zero is the instance the list form is built on. `State.construct` takes any `init_mem`. -/
def unlistedByte : Byte := 0x00#8

/-- The cost a Step returns in the Halted state (R9, R110). -/
def haltedCost : Nat := 4

/-- FREE VALUE (assumption 2, safe): the ROM byte at an index after a failed `LoadProgram` (R64, 93 I1).
The first argument numbers the failed loads, so that each one draws afresh. It has no body:
nothing can be proved of its value. -/
opaque failedLoadByte : Nat → Nat → Byte

end Sys2Proof.Config
end

