-- ==== Sys2Proof/Machine/Memory.lean ====
section
/-! DEFINITION. The Address Space as data: the storage bytes, the canonical form of the memory list, and the
address decoder (20_memory.md R50 to R59). -/

namespace Sys2Proof.Machine

open Sys2Proof.Config

/-- Where an address leads (R56). The index counts within the region. -/
inductive Loc where
  | rom (i : Nat)
  | wram (i : Nat)
  | hram (i : Nat)
  | unmapped
deriving DecidableEq, Repr

/-- `Decode(addr)`: the first range that matches wins (R56). The mirror leads to working RAM (R54). -/
def decodeAddr (addr : Word) : Loc :=
  let a := addr.toNat
  if a < romBase + romSize then .rom (a - romBase)
  else if wramBase ≤ a ∧ a < wramBase + wramSize then .wram (a - wramBase)
  else if mirrorBase ≤ a ∧ a < mirrorBase + mirrorSize then .wram (a - mirrorBase)
  else if hramBase ≤ a ∧ a < hramBase + hramSize then .hram (a - hramBase)
  else .unmapped

/-- The memory of the machine: the three arrays `rom`, `wram` and `hram` of R40 as one list of bytes, each
under the base address of its storage byte (so the mirror adds no byte, R54, R59). -/
abbrev Memory := List Host.Cell

/-- The key of a storage byte in the memory list: its base address; none for an unmapped address (R58). -/
def Loc.key : Loc → Option Nat
  | .rom i => some (romBase + i)
  | .wram i => some (wramBase + i)
  | .hram i => some (hramBase + i)
  | .unmapped => none

/-- The addresses that have a storage byte of their own (R52, R53, R55): those of R51 but for the mirror. -/
def isStorageKey (k : Nat) : Bool :=
  decide (k < romBase + romSize) || decide (wramBase ≤ k ∧ k < wramBase + wramSize) ||
    decide (hramBase ≤ k ∧ k < hramBase + hramSize)

/-- The canonical form from the key `lo` on: keys strictly rising, each the key of a storage byte, and no
byte that an unlisted key would read as anyway. -/
def Memory.wfFrom : Nat → Memory → Bool
  | _, [] => true
  | lo, (k, v) :: m => decide (lo ≤ k) && isStorageKey k && decide (v ≠ unlistedByte) && Memory.wfFrom (k + 1) m

/-- The memory list is in its one canonical form, so that equal memories are equal lists. -/
def Memory.wf (m : Memory) : Bool := Memory.wfFrom 0 m

/-- The byte stored under a key. -/
def Memory.load : Memory → Nat → Byte
  | [], _ => unlistedByte
  | (k, v) :: m, a => if k = a then v else Memory.load m a

/-- Puts a byte in front of a list whose keys are all larger, unless unlisted keys read as that byte anyway. -/
def Memory.consCell (k : Nat) (v : Byte) (m : Memory) : Memory :=
  if v = unlistedByte then m else (k, v) :: m

/-- Stores a byte under a key, keeping the canonical form. -/
def Memory.store : Memory → Nat → Byte → Memory
  | [], a, v => Memory.consCell a v []
  | (k, w) :: m, a, v =>
    if a < k then Memory.consCell a v ((k, w) :: m)
    else if a = k then Memory.consCell a v m
    else (k, w) :: Memory.store m a v

/-- Stores a sequence of bytes under rising keys from `k` on (the copy loop of R63). -/
def Memory.storeBytes : Memory → Nat → List Byte → Memory
  | m, _, [] => m
  | m, k, b :: bs => Memory.storeBytes (Memory.store m k b) (k + 1) bs

/-- Lists `f` on the `n` keys from `k` on, in front of `rest`. -/
def Memory.tabulate (f : Nat → Byte) : Nat → Nat → Memory → Memory
  | _, 0, rest => rest
  | k, n + 1, rest => Memory.consCell k (f k) (Memory.tabulate f (k + 1) n rest)

/-- The memory in which every storage byte holds what `f` says of its key: how an arbitrary `init_mem` (R10,
R202) and the arbitrary ROM contents of a failed load (R64) become a memory list.
Irreducible: no proof has a reason to count through its 40,000 keys. -/
@[irreducible] def Memory.ofFn (f : Nat → Byte) : Memory :=
  Memory.tabulate f romBase romSize (Memory.tabulate f wramBase wramSize (Memory.tabulate f hramBase hramSize []))

end Sys2Proof.Machine
end

