-- ==== Sys2Proof/Machine/State.lean ====
section
/-! DEFINITION. The state of the machine as plain data, the reasons a step can stop, and construction
(10_state.md R20 to R43; 70_reset_and_hazards.md R200 to R202). -/

namespace Sys2Proof.Machine

open Sys2Proof.Config

/-- The names of the eight 8-bit registers (R20). -/
inductive Reg8 where
  | A | F | B | C | D | E | H | L
deriving DecidableEq, Repr

/-- The names of the four 16-bit pair views (R22). They are no state of their own. -/
inductive Pair where
  | AF | BC | DE | HL
deriving DecidableEq, Repr

/-- The names of the four flags (R25). -/
inductive Flag where
  | Z | N | H | C
deriving DecidableEq, Repr

/-- The run state (R33). -/
inductive RunState where
  | running
  | halted
deriving DecidableEq, Repr

/-- The diagnostic event `UnknownOpcode(op, pc0)`: the opcode byte and the address it was fetched from (R132;
its content is the spec's decision D6). -/
structure UnknownOpcode where
  op : Byte
  pc0 : Word
deriving DecidableEq, Repr

/-- What the most recent `Step()` gave out: `Step` is an operation with a result (R117), a report (R132) and a
sequence of reads (R118), and `Host.Outcome.next` carries a state alone. DESIGN CHOICE (assumption 3, safe):
they are held here; no rule reads them. -/
structure StepOutput where
  /-- The cycle cost the Step returned (R117, R110); none before the first Step. -/
  cost : Option Nat
  /-- The addresses the Step read, in order (R118). -/
  reads : List Word
  /-- The diagnostic event the Step emitted, if any (R132). -/
  event : Option UnknownOpcode
deriving DecidableEq, Repr

/-- Nothing given out yet: before the first Step, and at the start of every Step. -/
def StepOutput.empty : StepOutput := ⟨none, [], none⟩

/-- The state of the machine: the tuple of R40, then three fields of the model's own: the policy, what a
Step gave out, and a draw counter (assumptions 2, 3, 4). -/
structure State where
  /-- The accumulator (R20). -/
  a : Byte
  /-- The flags register; bits 3 to 0 are always 0 (R24), which every write keeps (`State.setReg`). -/
  f : Byte
  b : Byte
  c : Byte
  d : Byte
  e : Byte
  h : Byte
  l : Byte
  /-- The stack pointer (R21, R31). -/
  sp : Word
  /-- The program counter (R21, R30). -/
  pc : Word
  /-- The run state (R33). -/
  run : RunState
  /-- The total-cycles counter, an unbounded natural number (R34). -/
  totalCycles : Nat
  /-- The storage bytes of ROM, working RAM and high RAM (R40, R52, R53, R55). -/
  mem : Memory
  /-- The parameter `unknown_policy` the machine was constructed with (R10, R132). Nothing changes it. -/
  policy : UnknownPolicy
  /-- What the most recent Step gave out (R117, R118, R132). -/
  out : StepOutput
  /-- How many loads have failed: numbers the draws of `Config.failedLoadByte` (R64). -/
  failedLoads : Nat
deriving DecidableEq, Repr

/-- The faults of the machine: there are none. "Nothing in the source is called undefined or unpredictable:
every operation is total" (93 section 1; R113, R170), so no instruction raises a fault. The type has no
constructor, which is safe: a step that answers a fault cannot exist. -/
inductive Fault
deriving DecidableEq, Repr

/-- The refusals of the machine. -/
inductive Refusal where
  /-- An instruction without a meaning, by its mnemonic. Raised by nobody: every arm of `exec` calls a meaning.
  Safe: it would stop the run. -/
  | notModelled (mnemonic : String)
deriving DecidableEq, Repr

/-- Construction (R200): the register values of `init_regs` (R41, R42, R43), the Address Space with the
contents `mem` (`init_mem`; any function of the storage addresses becomes a memory by `Memory.ofFn`), the
run state Running, `total_cycles` 0, and `unknown_policy`. -/
def State.construct (regs : InitRegs) (mem : Memory) (policy : UnknownPolicy) : State :=
  match regs with
  | .zeroed =>
    { a := 0x00#8, f := 0x00#8, b := 0x00#8, c := 0x00#8, d := 0x00#8, e := 0x00#8, h := 0x00#8, l := 0x00#8,
      sp := 0xFFFE#16, pc := 0x0000#16, run := .running, totalCycles := 0, mem := mem, policy := policy,
      out := StepOutput.empty, failedLoads := 0 }
  | .postBoot =>
    { a := 0x01#8, f := 0xB0#8, b := 0x00#8, c := 0x13#8, d := 0x00#8, e := 0xD8#8, h := 0x01#8, l := 0x4D#8,
      sp := 0xFFFE#16, pc := 0x0100#16, run := .running, totalCycles := 0, mem := mem, policy := policy,
      out := StepOutput.empty, failedLoads := 0 }

/-- The machine right after reset: construction with the defaults `Zeroed` and `Nop` of R10. Its memory lists
nothing: that is the instance of `init_mem` in which every storage byte holds `Config.unlistedByte`
(DESIGN CHOICE, assumption 1). -/
def State.reset : State := State.construct .zeroed [] .nop

end Sys2Proof.Machine
end

