-- ==== Sys2Proof/Machine/Ops.lean ====
section
/-! DEFINITION. The named operations over registers and the Address Space, and the accounting of a Step.
There is no exception to take and none to return from (60_exceptions.md R170, R175, R176). -/

namespace Sys2Proof.Machine

open Sys2Proof.Config

/-- `R[r]` (R12, R20). -/
def State.getReg (s : State) : Reg8 → Byte
  | .A => s.a
  | .F => s.f
  | .B => s.b
  | .C => s.c
  | .D => s.d
  | .E => s.e
  | .H => s.h
  | .L => s.l

/-- `R[r] <- v` (R12). The one place where F is written: it stores `v & 0xF0` (R24). -/
def State.setReg (s : State) (r : Reg8) (v : Byte) : State :=
  match r with
  | .A => { s with a := v }
  | .F => { s with f := v &&& 0xF0#8 }
  | .B => { s with b := v }
  | .C => { s with c := v }
  | .D => { s with d := v }
  | .E => { s with e := v }
  | .H => { s with h := v }
  | .L => { s with l := v }

/-- The first-named register of a pair, its high byte (R22). -/
def Pair.hi : Pair → Reg8
  | .AF => .A
  | .BC => .B
  | .DE => .D
  | .HL => .H

/-- The second-named register of a pair, its low byte (R22). -/
def Pair.lo : Pair → Reg8
  | .AF => .F
  | .BC => .C
  | .DE => .E
  | .HL => .L

/-- `R[p]`: a pair is computed on demand (R22, R23). -/
def State.getPair (s : State) (p : Pair) : Word := joinBytes (s.getReg p.hi) (s.getReg p.lo)

/-- `R[p] <- v`: writes through to the two registers (R23; for AF, through the mask of R24). -/
def State.setPair (s : State) (p : Pair) (v : Word) : State :=
  (s.setReg p.hi (hiByte v)).setReg p.lo (loByte v)

/-- `SP <- v` (R31, R39). -/
def State.setSp (s : State) (v : Word) : State := { s with sp := v }

/-- `PC <- v` (R12, R30). -/
def State.setPc (s : State) (v : Word) : State := { s with pc := v }

/-- `Read(addr)`: total, no side effect (R60, R58). -/
def State.read (s : State) (addr : Word) : Byte :=
  match (decodeAddr addr).key with
  | some k => Memory.load s.mem k
  | none => unmappedByte

/-- `Write(addr, v)`: one storage byte, ROM too; nothing at an unmapped address (R61, R62, R58). -/
def State.write (s : State) (addr : Word) (v : Byte) : State :=
  match (decodeAddr addr).key with
  | some k => { s with mem := Memory.store s.mem k v }
  | none => s

/-- A Step begins: it has returned, read and reported nothing yet. -/
def State.beginStep (s : State) : State := { s with out := StepOutput.empty }

/-- A Step returns its cost (R117). -/
def State.returnCost (s : State) (n : Nat) : State := { s with out := { s.out with cost := some n } }

/-- The cycle cost of the descriptor is added to `total_cycles` (R116). -/
def State.accrue (s : State) (n : Nat) : State := { s with totalCycles := s.totalCycles + n }

/-- The end of a Running Step: accrue, then return, the descriptor's cost (R113, R116, R117). -/
def retire (cycles : Nat) (s : State) : Host.Outcome State Fault Refusal :=
  .next ((s.accrue cycles).returnCost cycles)

/-- `report UnknownOpcode(op, pc0)`, under `NopReport` only (R131, R132). -/
def State.report (s : State) (op : Byte) (pc0 : Word) : State :=
  match s.policy with
  | .nop => s
  | .nopReport => { s with out := { s.out with event := some ⟨op, pc0⟩ } }

/-- The whole Step of a Halted core: it returns 4 and does nothing else (R110). -/
def haltedStep (s : State) : Host.Outcome State Fault Refusal :=
  .next (s.beginStep.returnCost haltedCost)

/-- Writes bytes at consecutive addresses through the Address Space, addresses wrapping (R14). -/
def State.writeBytes : State → Word → List Byte → State
  | s, _, [] => s
  | s, addr, b :: bs => State.writeBytes (s.write addr b) (addr + 1#16) bs

/-- The core is Running. A tool's operation, no move of the hardware (R33): see `State.withFetchWord`. -/
def State.setRunning (s : State) : State := { s with run := .running }

end Sys2Proof.Machine
end

