-- ==== Sys2Proof/Machine/Flags.lean ====
section
/-! DEFINITION. The flags as views of F, and the 8-bit add unit that computes them
(10_state.md R25, R26; 43_arithmetic.md R151). -/

namespace Sys2Proof.Machine

/-- The bit of F that holds a flag (R25; the order is the spec's decision D19). -/
def Flag.bit : Flag → Nat
  | .Z => 7
  | .N => 6
  | .H => 5
  | .C => 4

/-- The byte in which only a flag's own bit is set: 0x80, 0x40, 0x20, 0x10 (R26). -/
def Flag.mask (fl : Flag) : Byte := 1#8 <<< fl.bit

/-- `FLAG[f]`: true iff that bit of F is 1 (R26). -/
def State.flag (s : State) (fl : Flag) : Bool := s.f.getLsbD fl.bit

/-- `FLAG[f] <- b`: the other bits of F keep their value (R26). -/
def State.setFlag (s : State) (fl : Flag) (on : Bool) : State :=
  s.setReg .F (if on then s.f ||| fl.mask else s.f &&& ~~~ fl.mask)

/-- The byte that `SetFlags(z, n, h, c)` writes to F (R26). -/
def flagsByte (z n h c : Bool) : Byte :=
  (if z then Flag.Z.mask else 0#8) ||| (if n then Flag.N.mask else 0#8) |||
    (if h then Flag.H.mask else 0#8) ||| (if c then Flag.C.mask else 0#8)

/-- `SetFlags(z, n, h, c)`: all four flags at once (R26). -/
def State.setFlags (s : State) (z n h c : Bool) : State := s.setReg .F (flagsByte z n h c)

/-- What the add unit gives out (R151). -/
structure AddResult where
  r : Byte
  z : Bool
  n : Bool
  h : Bool
  c : Bool
deriving DecidableEq, Repr

/-- `Add8(a, b)`: the exact 9-bit sum, its low byte and the four flags (R151). The spec writes every quantity
as an exact unsigned integer, so the sums are natural numbers here. -/
def add8 (a b : Byte) : AddResult :=
  let sum := a.toNat + b.toNat
  let r := BitVec.ofNat 8 sum
  { r := r
    z := decide (r = 0#8)
    n := false
    h := decide ((a &&& 0x0F#8).toNat + (b &&& 0x0F#8).toNat > 0x0F)
    c := decide (sum > 0xFF) }

end Sys2Proof.Machine
end

