-- ==== Sys2Proof/Machine/Arith.lean ====
section
/-! DEFINITION. The one arithmetic instruction, `ADD A,B` (43_arithmetic.md R150 to R152).
A meaning runs on the state after the fetches: PC is one past the whole instruction (R114). -/

namespace Sys2Proof.Machine

/-- `ADD A,B` (R150): both operands are read before A and the flags are written. -/
def execAddAB (s : State) : Host.Outcome State Fault Refusal :=
  let res := add8 (s.getReg .A) (s.getReg .B)
  retire (dispatchTable 0x80#8).cycles ((s.setReg .A res.r).setFlags res.z res.n res.h res.c)

end Sys2Proof.Machine
end

