-- ==== Sys2Proof/Machine/Operands.lean ====
section
/-! DEFINITION. The fetch primitives and the two operand forms: immediate and register
(40_execution_cycle.md R111, R112, R114, R118; 42_loads.md R145). -/

namespace Sys2Proof.Machine

/-- `Fetch8()`: the byte at PC, and PC advanced by 1 modulo 0x10000 (R111; the wrap is the spec's decision D1).
The read is recorded in the order it is made (R118). -/
def fetch8 (s : State) : Byte × State :=
  (s.read s.pc, { s with pc := s.pc + 1#16, out := { s.out with reads := s.out.reads ++ [s.pc] } })

/-- `Fetch16()`: the low byte first, then the high byte (R112). -/
def fetch16 (s : State) : Word × State :=
  let lo := fetch8 s
  let hi := fetch8 lo.2
  (joinBytes hi.1 lo.1, hi.2)

/-- Fetches the operand a format asks for, only by `Fetch8` and `Fetch16` (R114), and gives the instruction. -/
def fetchOperand (form : Form) (s : State) : Instr × State :=
  match form with
  | .op i => (i, s)
  | .opImm8 mk => let n := fetch8 s; (mk n.1, n.2)
  | .opImm16 mk => let nn := fetch16 s; (mk nn.1, nn.2)

/-- Fetch and decode of a Running Step (R113): the opcode at PC, its descriptor, its operand. Afterwards PC is
one past the whole instruction. The operand of `exec`'s argument is fetched here rather than inside the handler,
which no rule can tell apart: reads have no side effect (R68) and the handler acts after its fetches. -/
def fetchInstr (s : State) : Instr × State :=
  let op := fetch8 s
  fetchOperand (dispatchTable op.1).form op.2

/-- The register operand of `LD A,r` is read before A is written: `R[A] <- R[src]` (R143, R144). -/
def copyToA (src : Reg8) (s : State) : State := s.setReg .A (s.getReg src)

end Sys2Proof.Machine
end

