-- ==== Sys2Proof/Machine/Control.lean ====
section
/-! DEFINITION. The one control transfer, `JP nn` (44_control.md R160, R161).
A meaning runs on the state after the fetches: PC is one past the whole instruction (R114). -/

namespace Sys2Proof.Machine

/-- `JP nn` (R160): PC, which the fetches left one past the instruction, is overwritten with the target. -/
def execJpNn (nn : Word) (s : State) : Host.Outcome State Fault Refusal :=
  retire (dispatchTable 0xC3#8).cycles (s.setPc nn)

end Sys2Proof.Machine
end

