-- ==== Sys2Proof/Machine/Loads.lean ====
section
/-! DEFINITION. The five 8-bit loads (42_loads.md R140 to R145). No load writes a flag.
A meaning runs on the state after the fetches: PC is one past the whole instruction (R114). -/

namespace Sys2Proof.Machine

/-- `LD B,n` (R141). -/
def execLdBn (n : Byte) (s : State) : Host.Outcome State Fault Refusal :=
  retire (dispatchTable 0x06#8).cycles (s.setReg .B n)

/-- `LD C,n` (R142). -/
def execLdCn (n : Byte) (s : State) : Host.Outcome State Fault Refusal :=
  retire (dispatchTable 0x0E#8).cycles (s.setReg .C n)

/-- `LD A,n` (R140). -/
def execLdAn (n : Byte) (s : State) : Host.Outcome State Fault Refusal :=
  retire (dispatchTable 0x3E#8).cycles (s.setReg .A n)

/-- `LD A,B` (R143). -/
def execLdAB (s : State) : Host.Outcome State Fault Refusal :=
  retire (dispatchTable 0x78#8).cycles (copyToA .B s)

/-- `LD A,C` (R144). -/
def execLdAC (s : State) : Host.Outcome State Fault Refusal :=
  retire (dispatchTable 0x79#8).cycles (copyToA .C s)

end Sys2Proof.Machine
end

