-- ==== Sys2Proof/Machine/Nop.lean ====
section
/-! DEFINITION. `NOP` and the unknown-opcode fallback (41_nop_and_unknown.md R130 to R132).
A meaning runs on the state after the fetches: PC is one past the whole instruction (R114). -/

namespace Sys2Proof.Machine

/-- `NOP` (R130): the handler does nothing. -/
def execNop (s : State) : Host.Outcome State Fault Refusal :=
  retire (dispatchTable 0x00#8).cycles s

/-- An unknown opcode (R131): no register or memory effect, and a report under `NopReport` (R132). The opcode
was fetched one byte before PC. -/
def execUnknown (op : Byte) (s : State) : Host.Outcome State Fault Refusal :=
  retire (unknownDescriptor op).cycles (s.report op (s.pc - 1#16))

end Sys2Proof.Machine
end

