-- ==== Sys2Proof/Machine/Dispatch.lean ====
section
/-! DEFINITION. One arm per instruction: which meaning runs (40_execution_cycle.md R113, R115). -/

namespace Sys2Proof.Machine

def exec (i : Instr) (s : State) : Host.Outcome State Fault Refusal :=
  match i with
  | .nop => Sys2Proof.Machine.execNop s
  | .ldBn n => Sys2Proof.Machine.execLdBn n s
  | .ldCn n => Sys2Proof.Machine.execLdCn n s
  | .ldAn n => Sys2Proof.Machine.execLdAn n s
  | .ldAB => Sys2Proof.Machine.execLdAB s
  | .ldAC => Sys2Proof.Machine.execLdAC s
  | .addAB => Sys2Proof.Machine.execAddAB s
  | .jpNn nn => Sys2Proof.Machine.execJpNn nn s
  | .unknown op => Sys2Proof.Machine.execUnknown op s

end Sys2Proof.Machine
end

