-- ==== Sys2Proof/Machine/Step.lean ====
section
/-! DEFINITION. One `Step()` (40_execution_cycle.md R110, R113), and how a tool places an instruction where the
next Step fetches. -/

namespace Sys2Proof.Machine

/-- `Step()` (R113): a Halted core does nothing but return 4 (R110); a Running one fetches, decodes and
executes one whole instruction, accrues its cost and returns it. -/
def step (s : State) : Host.Outcome State Fault Refusal :=
  match s.run with
  | .halted => haltedStep s
  | .running => exec (fetchInstr s.beginStep).1 (fetchInstr s.beginStep).2

/-- The state with an instruction's bytes (as spec/opcode_table.json numbers its bits) stored at PC and on, by
the Address Space's own `Write`, and the core Running, so that the next Step fetches and runs it. Where PC leads
to an unmapped address nothing can be stored (R58): see assumption 5. -/
def State.withFetchWord (s : State) (nbits w : Nat) : State :=
  (s.writeBytes s.pc (tableWordBytes nbits w)).setRunning

end Sys2Proof.Machine
end

