-- ==== Sys2Proof/Machine/HostOps.lean ====
section
/-! DEFINITION. What the host can do to the machine between Steps, and runs made of Steps and host operations
(60_exceptions.md R171, R184; 20_memory.md R63, R64; 10_state.md R39; 40_execution_cycle.md R120). -/

namespace Sys2Proof.Machine

open Sys2Proof.Config

/-- The one reportable error of the hardware: "program too large for ROM capacity" (R171). -/
inductive LoadError where
  | programTooLarge
deriving DecidableEq, Repr

/-- A successful load: `rom[i] <- bytes[i]`, nothing else (R63). -/
def State.loadRom (s : State) (bytes : List Byte) : State :=
  { s with mem := Memory.storeBytes s.mem romBase bytes }

/-- A failed load leaves every ROM byte unspecified, a free draw, and everything else unchanged (R64, 93 I1). -/
def State.scrambleRom (s : State) : State :=
  { s with
    mem := Memory.ofFn (fun k =>
      if romBase ≤ k ∧ k < romBase + romSize then failedLoadByte s.failedLoads (k - romBase) else Memory.load s.mem k),
    failedLoads := s.failedLoads + 1 }

/-- `LoadProgram(bytes)` (R63, R64): Ok, or the error of R171. -/
def State.loadProgram (s : State) (bytes : List Byte) : Except LoadError Unit × State :=
  if bytes.length ≤ romSize then (.ok (), s.loadRom bytes) else (.error .programTooLarge, s.scrambleRom)

/-- The host operations of R184 but for construction (`State.construct`) and `Step()` (`step`). -/
inductive HostOp where
  /-- `LoadProgram(bytes)` (R63, R64). -/
  | loadProgram (bytes : List Byte)
  /-- `Read(addr)` (R60). -/
  | read (addr : Word)
  /-- `Write(addr, v)` (R61). -/
  | write (addr : Word) (v : Byte)
  /-- Read a register, SP, PC, a pair or a flag (R39). -/
  | readReg (r : Reg8)
  | readSp
  | readPc
  | readPair (p : Pair)
  | readFlag (fl : Flag)
  /-- Set a register, SP, PC, a pair, a flag, or the four flags (R39; D7). -/
  | setReg (r : Reg8) (v : Byte)
  | setSp (v : Word)
  | setPc (v : Word)
  | setPair (p : Pair) (v : Word)
  | setFlag (fl : Flag) (on : Bool)
  | setFlags (z n h c : Bool)
  /-- Read `total_cycles` (R34). -/
  | readTotalCycles
deriving DecidableEq, Repr

/-- What a host operation gives back (R184). -/
inductive HostResult where
  | done
  | loadFailed (e : LoadError)
  | byte (v : Byte)
  | word (v : Word)
  | bool (v : Bool)
  | cycles (n : Nat)
deriving DecidableEq, Repr

/-- One host operation: its result and the state after it (R184). -/
def hostOp (op : HostOp) (s : State) : HostResult × State :=
  match op with
  | .loadProgram bytes =>
    match s.loadProgram bytes with
    | (.ok _, t) => (.done, t)
    | (.error e, t) => (.loadFailed e, t)
  | .read addr => (.byte (s.read addr), s)
  | .write addr v => (.done, s.write addr v)
  | .readReg r => (.byte (s.getReg r), s)
  | .readSp => (.word s.sp, s)
  | .readPc => (.word s.pc, s)
  | .readPair p => (.word (s.getPair p), s)
  | .readFlag fl => (.bool (s.flag fl), s)
  | .setReg r v => (.done, s.setReg r v)
  | .setSp v => (.done, s.setSp v)
  | .setPc v => (.done, s.setPc v)
  | .setPair p v => (.done, s.setPair p v)
  | .setFlag fl on => (.done, s.setFlag fl on)
  | .setFlags z n h c => (.done, s.setFlags z n h c)
  | .readTotalCycles => (.cycles s.totalCycles, s)

/-- One move of a run: a Step, or a host operation between two Steps (R120, R184; D8). -/
inductive Move where
  | step
  | host (op : HostOp)
deriving DecidableEq, Repr

/-- The effect of one move. -/
def move (m : Move) (s : State) : Host.Outcome State Fault Refusal :=
  match m with
  | .step => step s
  | .host op => .next (hostOp op s).2

/-- A finite run: moves one after another (R120). -/
def runMoves : List Move → State → Host.Outcome State Fault Refusal
  | [], s => .next s
  | m :: ms, s =>
    match move m s with
    | .next t => runMoves ms t
    | .fault r => .fault r
    | .refused r => .refused r

end Sys2Proof.Machine
end

