-- ==== Sys2Proof/Safety.lean ====
section
/-! DEFINITION. What the claims about the machine are said in: its invariant, the states a run can reach, what
an instruction leaves alone, and what two states share. -/

namespace Sys2Proof.Machine

open Sys2Proof.Config

/-- The invariant of the machine: bits 3 to 0 of F are zero (R24), and the memory list is in its one canonical
form (the model's own form of the three arrays of R40). -/
structure State.Inv (s : State) : Prop where
  flagsLow : s.f &&& 0x0F#8 = 0#8
  memory : Memory.wf s.mem = true

/-- A state that some run reaches: construction with any `init_regs`, any `init_mem` and any `unknown_policy`,
then Steps and host operations in any order (R120, R200). -/
def Reachable (s : State) : Prop :=
  ∃ (regs : InitRegs) (initMem : Nat → Byte) (policy : UnknownPolicy) (ms : List Move),
    runMoves ms (State.construct regs (Memory.ofFn initMem) policy) = .next s

/-- The frame of an instruction: `t` is `s` but for the 8-bit registers `rs`, PC, `total_cycles`, and the cost
and event given out. Every flag, SP, the run state, the parameter, the reads and every byte stay. -/
structure OnlyChanges (rs : List Reg8) (s t : State) : Prop where
  regs : ∀ r, r ∉ rs → t.getReg r = s.getReg r
  flags : Reg8.F ∉ rs → ∀ fl, t.flag fl = s.flag fl
  sp : t.sp = s.sp
  run : t.run = s.run
  bytes : ∀ addr, t.read addr = s.read addr
  mem : t.mem = s.mem
  policy : t.policy = s.policy
  failedLoads : t.failedLoads = s.failedLoads
  reads : t.out.reads = s.out.reads

/-- The frame of a host operation that sets registers: `t` is `s` but for the 8-bit registers `rs`. Every flag (where
F is not among them), SP, PC, every byte and every other field stay (R26, R39, R65). -/
structure OnlySets (rs : List Reg8) (s t : State) : Prop where
  regs : ∀ r, r ∉ rs → t.getReg r = s.getReg r
  flags : Reg8.F ∉ rs → ∀ fl, t.flag fl = s.flag fl
  sp : t.sp = s.sp
  pc : t.pc = s.pc
  bytes : ∀ addr, t.read addr = s.read addr
  mem : t.mem = s.mem
  run : t.run = s.run
  totalCycles : t.totalCycles = s.totalCycles
  policy : t.policy = s.policy
  out : t.out = s.out
  failedLoads : t.failedLoads = s.failedLoads

/-- The host operations of R184 that read: `Read`, the register, pair and flag reads, and the `total_cycles` read. -/
def isHostRead : HostOp → Bool
  | .read _ => true
  | .readReg _ => true
  | .readSp => true
  | .readPc => true
  | .readPair _ => true
  | .readFlag _ => true
  | .readTotalCycles => true
  | .loadProgram _ => false
  | .write _ _ => false
  | .setReg _ _ => false
  | .setSp _ => false
  | .setPc _ => false
  | .setPair _ _ => false
  | .setFlag _ _ => false
  | .setFlags _ _ _ _ => false

/-- The accounting of a Running Step of cost `n` (R116, R117). -/
structure Charges (n : Nat) (s t : State) : Prop where
  total : t.totalCycles = s.totalCycles + n
  cost : t.out.cost = some n

/-- The part of a state that instructions act on: without the counter, what a Step gave out, and the model's
parameter and draw counter. -/
def State.coreOf (s : State) : State :=
  { s with totalCycles := 0, out := StepOutput.empty, policy := .nop, failedLoads := 0 }

/-- The 8-bit registers an instruction writes, by the table of R28. -/
def writesOf : Instr → List Reg8
  | .nop => []
  | .ldBn _ => [.B]
  | .ldCn _ => [.C]
  | .ldAn _ => [.A]
  | .ldAB => [.A]
  | .ldAC => [.A]
  | .addAB => [.A, .F]
  | .jpNn _ => []
  | .unknown _ => []

/-- The 8-bit registers an instruction reads, by the table of R28. -/
def readsOf : Instr → List Reg8
  | .nop => []
  | .ldBn _ => []
  | .ldCn _ => []
  | .ldAn _ => []
  | .ldAB => [.B]
  | .ldAC => [.C]
  | .addAB => [.A, .B]
  | .jpNn _ => []
  | .unknown _ => []

/-- The three bytes at PC, PC + 1 and PC + 2 (addresses wrap, R14): room for the longest instruction. -/
def State.window (s : State) : List Byte := [s.read s.pc, s.read (s.pc + 1#16), s.read (s.pc + 2#16)]

/-- The first `n` addresses a fetch at `pc` reads (R118). -/
def fetchAddresses (pc : Word) (n : Nat) : List Word := [pc, pc + 1#16, pc + 2#16].take n

end Sys2Proof.Machine
end

