-- ==== Sys2Proof/Certificates/Slice0/Obligations.lean ====
section
/-! DEFINITION. The statements about the machine, from the numbered rules of the spec.

Where a rule rests on a decision the spec marks as its own (92_eei_decisions.md), the docstring of the statement
names that decision. The statements about one instruction speak of `exec` on the state after the fetches, for
every state, and then of `step`, by the fetch primitives `Fetch8` and `Fetch16` as the rule writes them. -/

open Sys2Proof Sys2Proof.Machine Sys2Proof.Config

/-! ### Reset -/

/-- R41: construction under `Zeroed`, whatever the memory and the policy, and the machine after reset. -/
def Obligations.ZeroedConstructionClearsRegisters : Prop :=
  (∀ mem policy,
    (∀ r, (State.construct .zeroed mem policy).getReg r = 0x00#8) ∧
    (State.construct .zeroed mem policy).sp = 0xFFFE#16 ∧ (State.construct .zeroed mem policy).pc = 0x0000#16) ∧
  ∃ mem policy, State.reset = State.construct .zeroed mem policy

/-- R42, R43: construction under `PostBoot`. The reading of F as flags rests on the spec's decision D19, and that
`PostBoot` is one of two named variants on D2. -/
def Obligations.PostBootConstructionSetsRegisters : Prop :=
  ∀ mem policy,
    (State.construct .postBoot mem policy).getPair .AF = 0x01B0#16 ∧
    (State.construct .postBoot mem policy).getPair .BC = 0x0013#16 ∧
    (State.construct .postBoot mem policy).getPair .DE = 0x00D8#16 ∧
    (State.construct .postBoot mem policy).getPair .HL = 0x014D#16 ∧
    (State.construct .postBoot mem policy).sp = 0xFFFE#16 ∧
    (State.construct .postBoot mem policy).pc = 0x0100#16 ∧
    (State.construct .postBoot mem policy).flag .Z = true ∧
    (State.construct .postBoot mem policy).flag .N = false ∧
    (State.construct .postBoot mem policy).flag .H = true ∧
    (State.construct .postBoot mem policy).flag .C = true

/-- R43, R200, R202: under either variant the core starts Running with `total_cycles` 0 (the spec's decision D4),
and a read of any mapped address returns the `init_mem` byte of its storage (D3): every `init_mem` is possible. -/
def Obligations.ConstructionHoldsAnyInitialMemory : Prop :=
  ∀ (regs : InitRegs) (initMem : Nat → Byte) (policy : UnknownPolicy) (addr : Word),
    (State.construct regs (Memory.ofFn initMem) policy).run = .running ∧
    (State.construct regs (Memory.ofFn initMem) policy).totalCycles = 0 ∧
    (∀ i, decodeAddr addr = .rom i →
      (State.construct regs (Memory.ofFn initMem) policy).read addr = initMem (0x0000 + i)) ∧
    (∀ i, decodeAddr addr = .wram i →
      (State.construct regs (Memory.ofFn initMem) policy).read addr = initMem (0xC000 + i)) ∧
    (∀ i, decodeAddr addr = .hram i →
      (State.construct regs (Memory.ofFn initMem) policy).read addr = initMem (0xFF80 + i))

/-! ### The Address Space -/

/-- R56: where each address leads. -/
def Obligations.AddressDecodeFollowsRegionMap : Prop :=
  ∀ addr : Word,
    (addr.toNat ≤ 0x7FFF → decodeAddr addr = .rom addr.toNat) ∧
    (0xC000 ≤ addr.toNat ∧ addr.toNat ≤ 0xDFFF → decodeAddr addr = .wram (addr.toNat - 0xC000)) ∧
    (0xE000 ≤ addr.toNat ∧ addr.toNat ≤ 0xFDFF → decodeAddr addr = .wram (addr.toNat - 0xE000)) ∧
    (0xFF80 ≤ addr.toNat ∧ addr.toNat ≤ 0xFFFE → decodeAddr addr = .hram (addr.toNat - 0xFF80)) ∧
    (¬ addr.toNat ≤ 0x7FFF ∧ ¬ (0xC000 ≤ addr.toNat ∧ addr.toNat ≤ 0xFDFF) ∧
      ¬ (0xFF80 ≤ addr.toNat ∧ addr.toNat ≤ 0xFFFE) → decodeAddr addr = .unmapped)

/-- R58: the unmapped addresses are exactly these; a read of one returns 0xFF, a write to one changes no state. -/
def Obligations.UnmappedReadsFFAndDiscardsWrites : Prop :=
  ∀ addr : Word,
    (decodeAddr addr = .unmapped ↔
      (0x8000 ≤ addr.toNat ∧ addr.toNat ≤ 0xBFFF) ∨ (0xFE00 ≤ addr.toNat ∧ addr.toNat ≤ 0xFF7F) ∨
        addr.toNat = 0xFFFF) ∧
    (decodeAddr addr = .unmapped → ∀ (s : State) (v : Byte), s.read addr = 0xFF#8 ∧ s.write addr v = s)

/-- R60, R61, R72: a write to a mapped address is what a read through any alias returns; every other address
reads as before; nothing but the memory changes. That ROM is among the mapped addresses a write stores to is the
spec's decision D10 (conflict C4). The premise is the canonical form, which `StepKeepsInvariant` and
`HostOperationsKeepInvariant` keep. -/
def Obligations.WriteIsReadBackThroughEveryAlias : Prop :=
  ∀ (s : State) (x y : Word) (v : Byte), Memory.wf s.mem = true →
    (s.write x v).read y = (if decodeAddr x = decodeAddr y ∧ decodeAddr x ≠ .unmapped then v else s.read y) ∧
    s.write x v = { s with mem := (s.write x v).mem }

/-- R54: the mirror selects the same storage bytes as the base addresses, for reads and for writes. The second clause
is the sentence of R54 that the spec marks as its own inference: "WRAM bytes 0x1E00 to 0x1FFF (addresses 0xDE00 to
0xDFFF) have no mirror address [derived: from rule R51, since 0xFE00 and above are not mirror]". -/
def Obligations.MirrorSelectsWorkingRam : Prop :=
  (∀ addr : Word, 0xE000 ≤ addr.toNat → addr.toNat ≤ 0xFDFF →
    decodeAddr addr = .wram (addr.toNat - 0xE000) ∧
    ∀ (s : State) (v : Byte), s.read addr = s.read (addr - 0x2000#16) ∧
      s.write addr v = s.write (addr - 0x2000#16) v) ∧
  (∀ addr other : Word, 0xDE00 ≤ addr.toNat → addr.toNat ≤ 0xDFFF →
    decodeAddr other = decodeAddr addr → other = addr)

/-- R59: two distinct addresses select one storage byte exactly when they are a working RAM address and its
mirror. -/
def Obligations.AliasesAreExactlyTheMirrorPairs : Prop :=
  ∀ x y : Word, x ≠ y →
    ((decodeAddr x = decodeAddr y ∧ decodeAddr x ≠ .unmapped) ↔
      (0xC000 ≤ x.toNat ∧ x.toNat ≤ 0xDDFF ∧ y.toNat = x.toNat + 0x2000) ∨
      (0xC000 ≤ y.toNat ∧ y.toNat ≤ 0xDDFF ∧ x.toNat = y.toNat + 0x2000))

/-- The model's own form of the three arrays of R40: two memories in canonical form that hold the same byte under
every key are one list, so that equal memories are equal data. -/
def Obligations.CanonicalMemoryIsUnique : Prop :=
  ∀ m m' : Memory, Memory.wf m = true → Memory.wf m' = true →
    (∀ k, Memory.load m k = Memory.load m' k) → m = m'

/-- R63: a load of at most 32768 bytes copies them to address 0 and on, and succeeds. That it changes nothing
else is the spec's decision D9. -/
def Obligations.LoadProgramCopiesIntoRom : Prop :=
  ∀ (s : State) (bytes : List Byte), Memory.wf s.mem = true → bytes.length ≤ 32768 →
    (hostOp (.loadProgram bytes) s).1 = .done ∧
    (∀ addr : Word, (hostOp (.loadProgram bytes) s).2.read addr =
      (bytes[addr.toNat]?).getD (s.read addr)) ∧
    (hostOp (.loadProgram bytes) s).2 = { s with mem := (hostOp (.loadProgram bytes) s).2.mem }

/-- R64, R171: a longer load fails with the one error of the hardware. Every ROM byte is then a free draw (log
entry 2: the model's form of "any bytes"), whose value nothing constrains; working RAM and high RAM read as before
and all core state is unchanged, which is the spec's decision D9. -/
def Obligations.OversizedLoadFailsAndSparesRam : Prop :=
  ∀ (s : State) (bytes : List Byte), 32768 < bytes.length →
    (hostOp (.loadProgram bytes) s).1 = .loadFailed .programTooLarge ∧
    (∀ addr : Word, addr.toNat ≤ 0x7FFF →
      (hostOp (.loadProgram bytes) s).2.read addr = failedLoadByte s.failedLoads addr.toNat) ∧
    (∀ addr : Word, 0x7FFF < addr.toNat → (hostOp (.loadProgram bytes) s).2.read addr = s.read addr) ∧
    (hostOp (.loadProgram bytes) s).2 =
      { s with mem := (hostOp (.loadProgram bytes) s).2.mem, failedLoads := s.failedLoads + 1 }

/-! ### Registers, pairs and flags -/

/-- R23: a pair reads as `{R[hi], R[lo]}`; a write of `v` goes through to its two registers and no other, and reads
back as `v`, or as `v & 0xFFF0` for AF; nothing else of the state changes. -/
def Obligations.PairWritesThroughAndReadsBack : Prop :=
  ∀ (s : State) (p : Pair) (v : Word),
    (s.getPair p).toNat = 256 * (s.getReg p.hi).toNat + (s.getReg p.lo).toNat ∧
    ((s.setPair p v).getReg p.hi).toNat = v.toNat / 256 ∧
    (p ≠ .AF → ((s.setPair p v).getReg p.lo).toNat = v.toNat % 256 ∧ (s.setPair p v).getPair p = v) ∧
    (p = .AF → ((s.setPair p v).getReg p.lo).toNat = v.toNat % 256 - v.toNat % 16 ∧
      (s.setPair p v).getPair p = v &&& 0xFFF0#16) ∧
    OnlySets [p.hi, p.lo] s (s.setPair p v)

/-- R24: every write to F stores the byte masked with 0xF0, through F or through AF; every construction has the low
nibble of F zero, and from every state that has it zero, a Step and a host operation lead to one that has it zero, so
that every state a run can reach has. Which host operations there are is the spec's decision D7 (log entry 11). -/
def Obligations.FLowNibbleIsAlwaysZero : Prop :=
  (∀ (s : State) (v : Byte), (s.setReg .F v).getReg .F = v &&& 0xF0#8) ∧
  (∀ (s : State) (v : Word), (s.setPair .AF v).getReg .F = loByte v &&& 0xF0#8) ∧
  (∀ regs mem policy, (State.construct regs mem policy).getReg .F &&& 0x0F#8 = 0x00#8) ∧
  (∀ (m : Move) (s t : State), s.getReg .F &&& 0x0F#8 = 0x00#8 → move m s = .next t →
    t.getReg .F &&& 0x0F#8 = 0x00#8) ∧
  ∀ s : State, Reachable s → s.getReg .F &&& 0x0F#8 = 0x00#8

/-- R26: a flag that is written reads back, the other flags and the other bits of F keep their value (bits 3 to 0
are zero by R24, which the premise says), and so do all other registers, SP, PC and the memory; `SetFlags` writes the four
at once and nothing else. The places of the flags in F, which the byte of `SetFlags` shows, are the spec's decision D19. -/
def Obligations.FlagWritesAreIndependent : Prop :=
  (∀ (s : State) (fl : Flag) (on : Bool), s.f &&& 0x0F#8 = 0x00#8 →
    (s.setFlag fl on).flag fl = on ∧
    (∀ g, g ≠ fl → (s.setFlag fl on).flag g = s.flag g) ∧
    (∀ i, i ≠ fl.bit → (s.setFlag fl on).f.getLsbD i = s.f.getLsbD i) ∧
    OnlySets [.F] s (s.setFlag fl on)) ∧
  (∀ (s : State) (z n h c : Bool),
    (s.setFlags z n h c).f.toNat =
      (if z then 0x80 else 0) + (if n then 0x40 else 0) + (if h then 0x20 else 0) + (if c then 0x10 else 0) ∧
    (s.setFlags z n h c).flag .Z = z ∧ (s.setFlags z n h c).flag .N = n ∧
    (s.setFlags z n h c).flag .H = h ∧ (s.setFlags z n h c).flag .C = c ∧
    OnlySets [.F] s (s.setFlags z n h c))

/-! ### Encoding -/

/-- R90 to R96: the decoder gives back every well-formed instruction from its bytes, and the bytes after it. -/
def Obligations.DecodeGivesBackEncodedInstruction : Prop :=
  ∀ (i : Instr) (rest : List Byte), i.wellFormed = true → decode (encode i ++ rest) = .ok (i, rest)

/-- R90 to R96: each sequence of bytes has one reading: whatever the decoder reads is a well-formed instruction, and
the bytes it consumed are the encoding of that instruction. -/
def Obligations.DecodedBytesAreTheEncoding : Prop :=
  ∀ (bytes rest : List Byte) (i : Instr), decode bytes = .ok (i, rest) →
    i.wellFormed = true ∧ bytes = encode i ++ rest

/-- R99: no byte sequence fails to decode. Three bytes always hold one instruction, and the first byte alone
fixes its length, the one its descriptor states. -/
def Obligations.EveryByteSequenceDecodes : Prop :=
  ∀ (op b1 b2 : Byte) (rest : List Byte), ∃ i : Instr,
    i.opcode = op ∧ decode (op :: b1 :: b2 :: rest) = .ok (i, (op :: b1 :: b2 :: rest).drop (dispatchTable op).length)

/-- R96: exactly the bytes of the seven ranges select the unknown descriptor, of length 1 and cost 4. -/
def Obligations.UnlistedBytesSelectUnknownDescriptor : Prop :=
  ∀ (op : Byte) (rest : List Byte),
    decode (op :: rest) = .ok (.unknown op, rest) ∧ (dispatchTable op).length = 1 ∧ (dispatchTable op).cycles = 4 ↔
    (0x01 ≤ op.toNat ∧ op.toNat ≤ 0x05) ∨ (0x07 ≤ op.toNat ∧ op.toNat ≤ 0x0D) ∨
      (0x0F ≤ op.toNat ∧ op.toNat ≤ 0x3D) ∨ (0x3F ≤ op.toNat ∧ op.toNat ≤ 0x77) ∨
      (0x7A ≤ op.toNat ∧ op.toNat ≤ 0x7F) ∨ (0x81 ≤ op.toNat ∧ op.toNat ≤ 0xC2) ∨
      (0xC4 ≤ op.toNat ∧ op.toNat ≤ 0xFF)

/-- R95, R96: words written out from the encodings of the spec decode to the instructions they stand for. -/
def Obligations.SpecWordsDecodeAsListed : Prop :=
  ∀ (n lo hi : Byte) (rest : List Byte),
    decode (0b00000000#8 :: rest) = .ok (.nop, rest) ∧
    decode (0b00000110#8 :: n :: rest) = .ok (.ldBn n, rest) ∧
    decode (0b00001110#8 :: n :: rest) = .ok (.ldCn n, rest) ∧
    decode (0b00111110#8 :: n :: rest) = .ok (.ldAn n, rest) ∧
    decode (0b01111000#8 :: rest) = .ok (.ldAB, rest) ∧
    decode (0b01111001#8 :: rest) = .ok (.ldAC, rest) ∧
    decode (0b10000000#8 :: rest) = .ok (.addAB, rest) ∧
    decode (0b11000011#8 :: lo :: hi :: rest) = .ok (.jpNn (hi ++ lo), rest) ∧
    decode (0b11001011#8 :: rest) = .ok (.unknown 0xCB#8, rest)

/-! ### The Step -/

/-- R111, R112: what `Fetch8` and `Fetch16` give and change. The wrap of PC at 0xFFFF is the spec's decision D1,
and the record of the reads is the model's (log entry 3). -/
def Obligations.FetchReadsAtPcAndAdvances : Prop :=
  ∀ s : State,
    (fetch8 s).1 = s.read s.pc ∧
    (fetch8 s).2.pc.toNat = (s.pc.toNat + 1) % 0x10000 ∧
    (fetch8 s).2 = { s with pc := (fetch8 s).2.pc, out := { s.out with reads := s.out.reads ++ [s.pc] } } ∧
    (fetch16 s).1.toNat = 256 * (s.read (s.pc + 1#16)).toNat + (s.read s.pc).toNat ∧
    (fetch16 s).2.pc.toNat = (s.pc.toNat + 2) % 0x10000 ∧
    (fetch16 s).2 =
      { s with pc := (fetch16 s).2.pc, out := { s.out with reads := s.out.reads ++ [s.pc, s.pc + 1#16] } }

/-- R113 to R115: a Step of a Running core is the meaning of the instruction that the bytes at PC decode to, on the
state with PC past that instruction. The wrap of addresses is the spec's decision D1; the cleared and recorded
outputs are the model's (log entry 3). -/
def Obligations.StepRunsTheDecodedInstruction : Prop :=
  ∀ (s : State) (i : Instr) (rest : List Byte), s.run = .running → decode s.window = .ok (i, rest) →
    step s = exec i { s with
      pc := s.pc + BitVec.ofNat 16 (encode i).length,
      out := { StepOutput.empty with reads := fetchAddresses s.pc (encode i).length } }

/-- R110: a Halted Step returns 4 and does nothing else: no fetch, no change of PC, of any register, of the memory
or of `total_cycles`, and nothing is reported. -/
def Obligations.HaltedStepOnlyReturnsFour : Prop :=
  ∀ s : State, s.run = .halted → ∃ t, step s = .next t ∧
    t.out.cost = some 4 ∧ t.out.reads = [] ∧ t.out.event = none ∧ t.pc = s.pc ∧ t.totalCycles = s.totalCycles ∧
    (∀ r, t.getReg r = s.getReg r) ∧ (∀ addr, t.read addr = s.read addr) ∧ t = { s with out := t.out }

/-- R113, R120, R170: Step cannot fail, from any state, and no run of Steps and host operations ever stops. -/
def Obligations.EveryRunGoesOn : Prop :=
  (∀ s : State, ∃ t, step s = .next t) ∧ ∀ (ms : List Move) (s : State), ∃ t, runMoves ms s = .next t

/-- R117: a Running Step returns the cost of the descriptor that the opcode at PC selects, whatever the operands and
the rest of the state: 4, 8 or 16. -/
def Obligations.StepReturnsTheDescriptorCost : Prop :=
  ∀ s : State, s.run = .running → ∃ t, step s = .next t ∧
    t.out.cost = some (dispatchTable (s.read s.pc)).cycles ∧
    ((dispatchTable (s.read s.pc)).cycles = 4 ∨ (dispatchTable (s.read s.pc)).cycles = 8 ∨
      (dispatchTable (s.read s.pc)).cycles = 16)

/-- R116, R207: every instruction completes and adds its cost to `total_cycles`, by the table of R207. That the
counter never wraps is the spec's decision D4. -/
def Obligations.EveryInstructionAccruesItsCost : Prop :=
  ∀ (i : Instr) (s : State), ∃ t, exec i s = .next t ∧ ∃ n, Charges n s t ∧
    n = match i with
      | .nop => 4
      | .ldAn _ => 8
      | .ldBn _ => 8
      | .ldCn _ => 8
      | .ldAB => 4
      | .ldAC => 4
      | .addAB => 4
      | .jpNn _ => 16
      | .unknown _ => 4

/-- R114: PC after a Running Step is one past the instruction, except after `JP nn`, where it is the operand
(conflict C2). The modulus is the spec's decision D1. -/
def Obligations.PcAfterStepIsPastTheInstruction : Prop :=
  ∀ s : State, s.run = .running → ∃ t, step s = .next t ∧
    (s.read s.pc ≠ 0xC3#8 →
      t.pc.toNat = (s.pc.toNat + (dispatchTable (s.read s.pc)).length) % 0x10000) ∧
    (s.read s.pc = 0xC3#8 →
      t.pc.toNat = 256 * (s.read (s.pc + 2#16)).toNat + (s.read (s.pc + 1#16)).toNat)

/-- R118: a Running Step reads the opcode at PC and then its operand bytes at the next addresses, in that order, as
many bytes as the descriptor's length, and makes no other access: no byte of memory changes. The modulus is
the spec's decision D1; the record is the model's (log entry 3). -/
def Obligations.StepReadsItsBytesInOrder : Prop :=
  ∀ s : State, s.run = .running → ∃ t, step s = .next t ∧
    t.out.reads.length = (dispatchTable (s.read s.pc)).length ∧
    (∀ k, k < t.out.reads.length → t.out.reads[k]? = some (s.pc + BitVec.ofNat 16 k)) ∧
    ∀ addr, t.read addr = s.read addr

/-- R132, R182: under `NopReport` a Step on an unknown byte emits `UnknownOpcode(op, pc0)`; under `Nop`, and on an
implemented opcode, nothing is emitted; the policy makes no other difference. The two policies are the spec's
decision D5, the content of the event D6. -/
def Obligations.OnlyUnknownOpcodesAreReported : Prop :=
  ∀ s : State, s.run = .running → ∃ t, step s = .next t ∧
    t.out.event = (if s.policy = .nopReport ∧ (Instr.unknown (s.read s.pc)).wellFormed = true
      then some ⟨s.read s.pc, s.pc⟩ else none) ∧
    ∀ policy, ∃ t', step { s with policy := policy } = .next t' ∧
      { t' with policy := t.policy, out := { t'.out with event := t.out.event } } = t

/-- R71: a fetch from an unmapped address runs the unknown descriptor on 0xFF: no failure, nothing but PC moves. -/
def Obligations.UnmappedPcRunsUnknownOpcode : Prop :=
  ∀ s : State, s.run = .running → decodeAddr s.pc = .unmapped →
    step s = exec (.unknown 0xFF#8) (fetch8 s.beginStep).2 ∧
    ∃ t, step s = .next t ∧ t.pc = (fetch8 s).2.pc ∧ (∀ r, t.getReg r = s.getReg r) ∧
      (∀ addr, t.read addr = s.read addr) ∧ t.sp = s.sp ∧ t.run = .running

/-- R74, R206: a byte that the host writes at PC, wherever PC is mapped, is the opcode the very next Step runs. That
the host may write between Steps is the spec's decision D8, that ROM takes the write D10. -/
def Obligations.HostWriteIsSeenByTheNextFetch : Prop :=
  ∀ (s : State) (v : Byte), s.run = .running → Memory.wf s.mem = true → decodeAddr s.pc ≠ .unmapped →
    (fetchInstr (hostOp (.write s.pc v) s).2.beginStep).1.opcode = v ∧
    ∃ t, step (hostOp (.write s.pc v) s).2 = .next t ∧ t.out.cost = some (dispatchTable v).cycles

/-! ### The instructions -/

/-- R130: `NOP` has no register or memory effect, reports nothing, and costs 4; its Step is that after the opcode
fetch. That the counter grows by 4 without a bound is the spec's decision D4. -/
def Obligations.NopHasNoEffect : Prop :=
  (∀ s : State, ∃ t, exec .nop s = .next t ∧
    OnlyChanges [] s t ∧ t.pc = s.pc ∧ t.out.event = s.out.event ∧ Charges 4 s t) ∧
  ∀ s : State, s.run = .running → s.read s.pc = 0x00#8 → step s = exec .nop (fetch8 s.beginStep).2

/-- R131: an unknown opcode has no register or memory effect and costs 4, for every byte of R96; its Step is that
after the opcode fetch, whatever bytes follow. That the counter grows by 4 without a bound is the spec's decision
D4. What is reported is stated in `OnlyUnknownOpcodesAreReported`. -/
def Obligations.UnknownOpcodeHasNoEffect : Prop :=
  (∀ (op : Byte) (s : State), ∃ t, exec (.unknown op) s = .next t ∧
    OnlyChanges [] s t ∧ t.pc = s.pc ∧ (s.policy = .nop → t.out.event = s.out.event) ∧ Charges 4 s t) ∧
  ∀ s : State, s.run = .running → (Instr.unknown (s.read s.pc)).wellFormed = true →
    step s = exec (.unknown (s.read s.pc)) (fetch8 s.beginStep).2

/-- R140: `LD A,n` loads A with the byte that follows the opcode; no flag, no other register, no byte of memory
changes; the Step returns 8. -/
def Obligations.LdAnLoadsTheImmediate : Prop :=
  (∀ (n : Byte) (s : State), ∃ t, exec (.ldAn n) s = .next t ∧
    t.getReg .A = n ∧ OnlyChanges [.A] s t ∧ t.pc = s.pc ∧ t.out.event = s.out.event ∧ t.out.cost = some 8) ∧
  ∀ s : State, s.run = .running → s.read s.pc = 0x3E#8 →
    step s = exec (.ldAn (fetch8 (fetch8 s.beginStep).2).1) (fetch8 (fetch8 s.beginStep).2).2

/-- R141: `LD B,n` loads B with the byte that follows the opcode, so that BC reads `{n, R[C]}`; no flag, no other
register, no byte of memory changes; the Step returns 8. -/
def Obligations.LdBnLoadsTheImmediate : Prop :=
  (∀ (n : Byte) (s : State), ∃ t, exec (.ldBn n) s = .next t ∧
    t.getReg .B = n ∧ t.getPair .BC = joinBytes n (s.getReg .C) ∧
    OnlyChanges [.B] s t ∧ t.pc = s.pc ∧ t.out.event = s.out.event ∧ t.out.cost = some 8) ∧
  ∀ s : State, s.run = .running → s.read s.pc = 0x06#8 →
    step s = exec (.ldBn (fetch8 (fetch8 s.beginStep).2).1) (fetch8 (fetch8 s.beginStep).2).2

/-- R142: `LD C,n` loads the register C, not the carry flag, with the byte that follows the opcode; no flag, no
other register, no byte of memory changes; the Step returns 8. -/
def Obligations.LdCnLoadsTheImmediate : Prop :=
  (∀ (n : Byte) (s : State), ∃ t, exec (.ldCn n) s = .next t ∧
    t.getReg .C = n ∧ t.flag .C = s.flag .C ∧
    OnlyChanges [.C] s t ∧ t.pc = s.pc ∧ t.out.event = s.out.event ∧ t.out.cost = some 8) ∧
  ∀ s : State, s.run = .running → s.read s.pc = 0x0E#8 →
    step s = exec (.ldCn (fetch8 (fetch8 s.beginStep).2).1) (fetch8 (fetch8 s.beginStep).2).2

/-- R143: `LD A,B` copies B into A; B, every flag, every other register and every byte of memory are unchanged; the
Step returns 4. -/
def Obligations.LdABCopiesBIntoA : Prop :=
  (∀ s : State, ∃ t, exec .ldAB s = .next t ∧
    t.getReg .A = s.getReg .B ∧ t.getReg .B = s.getReg .B ∧
    OnlyChanges [.A] s t ∧ t.pc = s.pc ∧ t.out.event = s.out.event ∧ t.out.cost = some 4) ∧
  ∀ s : State, s.run = .running → s.read s.pc = 0x78#8 → step s = exec .ldAB (fetch8 s.beginStep).2

/-- R144: `LD A,C` copies the register C into A; C, every flag, every other register and every byte of memory are
unchanged; the Step returns 4. -/
def Obligations.LdACCopiesCIntoA : Prop :=
  (∀ s : State, ∃ t, exec .ldAC s = .next t ∧
    t.getReg .A = s.getReg .C ∧ t.getReg .C = s.getReg .C ∧
    OnlyChanges [.A] s t ∧ t.pc = s.pc ∧ t.out.event = s.out.event ∧ t.out.cost = some 4) ∧
  ∀ s : State, s.run = .running → s.read s.pc = 0x79#8 → step s = exec .ldAC (fetch8 s.beginStep).2

/-- R151: the outputs of the add unit as exact integer arithmetic, for every pair of inputs. -/
def Obligations.Add8ComputesSumAndFlags : Prop :=
  ∀ a b : Byte,
    (add8 a b).r.toNat = (a.toNat + b.toNat) % 256 ∧
    ((add8 a b).z = true ↔ (a.toNat + b.toNat) % 256 = 0) ∧
    (add8 a b).n = false ∧
    ((add8 a b).h = true ↔ a.toNat % 16 + b.toNat % 16 > 15) ∧
    ((add8 a b).c = true ↔ a.toNat + b.toNat > 255)

/-- R150: `ADD A,B` writes the sum modulo 256 to A and all four flags from the old A and B alone, through
`SetFlags`; B, every other register and every byte of memory are unchanged; the Step returns 4. -/
def Obligations.AddABWritesSumAndAllFlags : Prop :=
  (∀ s : State, ∃ t, exec .addAB s = .next t ∧
    (t.getReg .A).toNat = ((s.getReg .A).toNat + (s.getReg .B).toNat) % 256 ∧
    t.flag .Z = decide (t.getReg .A = 0x00#8) ∧
    t.flag .N = false ∧
    t.flag .H = decide ((s.getReg .A).toNat % 16 + (s.getReg .B).toNat % 16 > 15) ∧
    t.flag .C = decide ((s.getReg .A).toNat + (s.getReg .B).toNat > 255) ∧
    t.getReg .F = (s.setFlags (t.flag .Z) (t.flag .N) (t.flag .H) (t.flag .C)).getReg .F ∧
    t.getReg .F &&& 0x0F#8 = 0x00#8 ∧
    t.getReg .B = s.getReg .B ∧
    OnlyChanges [.A, .F] s t ∧ t.pc = s.pc ∧ t.out.event = s.out.event ∧ t.out.cost = some 4) ∧
  ∀ s : State, s.run = .running → s.read s.pc = 0x80#8 → step s = exec .addAB (fetch8 s.beginStep).2

/-- R160: `JP nn` overwrites PC with its operand, any 16-bit value; no flag, no register, no byte of memory changes;
the Step returns 16. -/
def Obligations.JpNnSetsPcToTheOperand : Prop :=
  (∀ (nn : Word) (s : State), ∃ t, exec (.jpNn nn) s = .next t ∧
    t.pc = nn ∧ OnlyChanges [] s t ∧ t.out.event = s.out.event ∧ t.out.cost = some 16) ∧
  ∀ s : State, s.run = .running → s.read s.pc = 0xC3#8 →
    step s = exec (.jpNn (fetch16 (fetch8 s.beginStep).2).1) (fetch16 (fetch8 s.beginStep).2).2

/-! ### Rules of the whole machine -/

/-- R27: a Step changes a flag only if it runs `ADD A,B`. -/
def Obligations.OnlyAddABChangesFlags : Prop :=
  ∀ s t : State, step s = .next t → t.f ≠ s.f → s.run = .running ∧ s.read s.pc = 0x80#8

/-- R28 (the spec derives the table from the instruction rules): an instruction changes no 8-bit register that its row
does not list as written, and an 8-bit register that its row does not list as read has no influence: setting it
first makes no difference but in that register itself, and none at all where the instruction writes it. SP has none
either way. -/
def Obligations.InstructionsTouchOnlyTheirTableRegisters : Prop :=
  ∀ (i : Instr) (s : State), ∃ t, exec i s = .next t ∧
    (∀ r, r ∉ writesOf i → t.getReg r = s.getReg r) ∧ t.sp = s.sp ∧
    (∀ r v, r ∉ readsOf i →
      exec i (s.setReg r v) = .next (if r ∈ writesOf i then t else t.setReg r v)) ∧
    ∀ v, exec i (s.setSp v) = .next (t.setSp v)

/-- R28, R31, R33, R69 (the last three of them read off the instruction rules): any number of Steps, from any
state, leaves D, E, H, L, SP, the run state and every byte of memory as they were. -/
def Obligations.StepsNeverChangeMemoryOrIdleRegisters : Prop :=
  ∀ (n : Nat) (s : State), ∃ t, Sys2Proof.core.run n s = .next t ∧
    (∀ addr, t.read addr = s.read addr) ∧ t.mem = s.mem ∧
    t.getPair .DE = s.getPair .DE ∧ t.getPair .HL = s.getPair .HL ∧ t.sp = s.sp ∧ t.run = s.run ∧
    t.policy = s.policy ∧ t.failedLoads = s.failedLoads

/-- The invariant holds of the machine after reset (R24, R41; the listed memory is the choice of log entry 1). -/
def Obligations.ResetMeetsInvariant : Prop := State.reset.Inv

/-- R24 and the canonical form of the memory: from every state that meets the invariant, a Step answers a state
that meets it. -/
def Obligations.StepKeepsInvariant : Prop :=
  ∀ s t : State, s.Inv → step s = .next t → t.Inv

/-- R24 and the canonical form of the memory: so does every host operation, a failed load included. Which host
operations there are is the spec's decision D7. -/
def Obligations.HostOperationsKeepInvariant : Prop :=
  ∀ (op : HostOp) (s : State), s.Inv → (hostOp op s).2.Inv

/-- R33: every construction is Running and, over any initial memory, meets the invariant; from every Running state
that meets it, a Step and a host operation lead to a Running state that meets it, so that no run of Steps and host
operations leads into Halted. That nothing does is the spec's decision D18, which host operations there are D7
(log entry 11). -/
def Obligations.NoReachableStateIsHalted : Prop :=
  (∀ regs (initMem : Nat → Byte) policy,
    (State.construct regs (Memory.ofFn initMem) policy).run = .running ∧
    (State.construct regs (Memory.ofFn initMem) policy).Inv) ∧
  (∀ (m : Move) (s t : State), s.run = .running → s.Inv → move m s = .next t → t.run = .running ∧ t.Inv) ∧
  ∀ s : State, Reachable s → s.run = .running ∧ s.Inv

/-- R39, R184: no host operation changes the run state, `total_cycles` or what the last Step gave out; a host read
of any kind changes nothing at all. Which host operations there are is the spec's decision D7. -/
def Obligations.HostOperationsLeaveExecutionStateAlone : Prop :=
  ∀ (op : HostOp) (s : State),
    (hostOp op s).2.run = s.run ∧ (hostOp op s).2.totalCycles = s.totalCycles ∧ (hostOp op s).2.out = s.out ∧
    (hostOp op s).2.policy = s.policy ∧
    (isHostRead op = true → (hostOp op s).2 = s)

/-- R39, R60, R184: what each host read answers, by the fields of the state, and that it leaves the state as it is. The
bit of each flag is the spec's decision D19, which reads there are D7. -/
def Obligations.HostReadsAnswerTheNamedValue : Prop :=
  ∀ s : State,
    (hostOp (.readReg .A) s = (.byte s.a, s) ∧ hostOp (.readReg .F) s = (.byte s.f, s) ∧
      hostOp (.readReg .B) s = (.byte s.b, s) ∧ hostOp (.readReg .C) s = (.byte s.c, s) ∧
      hostOp (.readReg .D) s = (.byte s.d, s) ∧ hostOp (.readReg .E) s = (.byte s.e, s) ∧
      hostOp (.readReg .H) s = (.byte s.h, s) ∧ hostOp (.readReg .L) s = (.byte s.l, s)) ∧
    hostOp .readSp s = (.word s.sp, s) ∧ hostOp .readPc s = (.word s.pc, s) ∧
    (hostOp (.readPair .AF) s = (.word (s.a ++ s.f), s) ∧ hostOp (.readPair .BC) s = (.word (s.b ++ s.c), s) ∧
      hostOp (.readPair .DE) s = (.word (s.d ++ s.e), s) ∧ hostOp (.readPair .HL) s = (.word (s.h ++ s.l), s)) ∧
    (hostOp (.readFlag .Z) s = (.bool (s.f.getLsbD 7), s) ∧ hostOp (.readFlag .N) s = (.bool (s.f.getLsbD 6), s) ∧
      hostOp (.readFlag .H) s = (.bool (s.f.getLsbD 5), s) ∧ hostOp (.readFlag .C) s = (.bool (s.f.getLsbD 4), s)) ∧
    hostOp .readTotalCycles s = (.cycles s.totalCycles, s) ∧
    ∀ addr : Word,
      (decodeAddr addr = .unmapped → hostOp (.read addr) s = (.byte 0xFF#8, s)) ∧
      (∀ i, decodeAddr addr = .rom i → hostOp (.read addr) s = (.byte (Memory.load s.mem (0x0000 + i)), s)) ∧
      (∀ i, decodeAddr addr = .wram i → hostOp (.read addr) s = (.byte (Memory.load s.mem (0xC000 + i)), s)) ∧
      (∀ i, decodeAddr addr = .hram i → hostOp (.read addr) s = (.byte (Memory.load s.mem (0xFF80 + i)), s))

/-- R23, R24, R26, R39, R184: what each host setter does: the register, pair or flag that it names holds the value (F
and the low byte of AF masked), and every other register, SP, PC, every byte of memory and every other field stay.
Which setters there are is the spec's decision D7. -/
def Obligations.HostSettersWriteOnlyTheirTarget : Prop :=
  ∀ s : State,
    (∀ r v, (hostOp (.setReg r v) s).1 = .done ∧
      (hostOp (.setReg r v) s).2.getReg r = (if r = .F then v &&& 0xF0#8 else v) ∧
      OnlySets [r] s (hostOp (.setReg r v) s).2) ∧
    (∀ v, hostOp (.setSp v) s = (.done, { s with sp := v })) ∧
    (∀ v, hostOp (.setPc v) s = (.done, { s with pc := v })) ∧
    (∀ p v, (hostOp (.setPair p v) s).1 = .done ∧
      ((hostOp (.setPair p v) s).2.getReg p.hi).toNat = v.toNat / 256 ∧
      ((hostOp (.setPair p v) s).2.getReg p.lo).toNat =
        (if p = .AF then v.toNat % 256 - v.toNat % 16 else v.toNat % 256) ∧
      OnlySets [p.hi, p.lo] s (hostOp (.setPair p v) s).2) ∧
    (∀ fl on, (hostOp (.setFlag fl on) s).1 = .done ∧ (hostOp (.setFlag fl on) s).2.flag fl = on ∧
      (∀ g, g ≠ fl → (hostOp (.setFlag fl on) s).2.flag g = s.flag g) ∧
      OnlySets [.F] s (hostOp (.setFlag fl on) s).2) ∧
    (∀ z n h c, (hostOp (.setFlags z n h c) s).1 = .done ∧
      (hostOp (.setFlags z n h c) s).2.flag .Z = z ∧ (hostOp (.setFlags z n h c) s).2.flag .N = n ∧
      (hostOp (.setFlags z n h c) s).2.flag .H = h ∧ (hostOp (.setFlags z n h c) s).2.flag .C = c ∧
      OnlySets [.F] s (hostOp (.setFlags z n h c) s).2)

/-- R58, R61, R184: what the host's `Write` does, at any address: a mapped byte holds the value under every alias, a
write to an unmapped address does nothing, every other address reads as before, and every register and every other
field stay. That ROM takes the write is the spec's decision D10, that the host may write D8. -/
def Obligations.HostWriteStoresOneByte : Prop :=
  ∀ (s : State) (addr : Word) (v : Byte),
    (hostOp (.write addr v) s).1 = .done ∧
    (decodeAddr addr = .unmapped → (hostOp (.write addr v) s).2 = s) ∧
    (hostOp (.write addr v) s).2 = { s with mem := (hostOp (.write addr v) s).2.mem } ∧
    (Memory.wf s.mem = true →
      (decodeAddr addr ≠ .unmapped → ∀ x, decodeAddr x = decodeAddr addr → (hostOp (.write addr v) s).2.read x = v) ∧
      ∀ x, decodeAddr x ≠ decodeAddr addr → (hostOp (.write addr v) s).2.read x = s.read x)

/-- R65: of all the moves of a run, Steps and host operations, only `Write` and `LoadProgram` change a byte of the
Address Space. Which host operations there are is the spec's decision D7. -/
def Obligations.OnlyWriteAndLoadProgramChangeMemory : Prop :=
  ∀ (m : Move) (s t : State), move m s = .next t →
    (∃ addr v, m = .host (.write addr v)) ∨ (∃ bytes, m = .host (.loadProgram bytes)) ∨
      (t.mem = s.mem ∧ ∀ addr, t.read addr = s.read addr)

/-- R116, R132, R207: the counter, the policy and the outputs influence nothing else. Two states that agree on the
rest still agree on it after any number of Steps, their counters have grown by the same amount, and the last
Steps returned the same cost and made the same reads. -/
def Obligations.DiagnosticsNeverInfluenceExecution : Prop :=
  ∀ (n : Nat) (s t : State), s.coreOf = t.coreOf →
    ∃ s' t', Sys2Proof.core.run n s = .next s' ∧ Sys2Proof.core.run n t = .next t' ∧
      s'.coreOf = t'.coreOf ∧ s'.totalCycles + t.totalCycles = t'.totalCycles + s.totalCycles ∧
      (0 < n → s'.out.cost = t'.out.cost ∧ s'.out.reads = t'.out.reads)

/-- R113, R116, R117: `n` Steps of a Running core are `n` whole instructions: it is still Running, and the counter
has grown by at least 4 and at most 16 for each. That the counter never wraps is the spec's decision D4. -/
def Obligations.StepsAccrueBoundedCycles : Prop :=
  ∀ (n : Nat) (s : State), s.run = .running → ∃ t, Sys2Proof.core.run n s = .next t ∧ t.run = .running ∧
    s.totalCycles + 4 * n ≤ t.totalCycles ∧ t.totalCycles ≤ s.totalCycles + 16 * n
end

