-- ==== Sys2Proof/Laws/Memory.lean ====
section
/-! SUPPORT. The laws of the memory list: what a load sees after each operation, and that every operation keeps
the canonical form. -/

namespace Sys2Proof.Machine

open Sys2Proof.Config

/-! ### The canonical form -/

/-- A form from a larger key on is one from a smaller key on. -/
theorem Memory.wfFrom_mono {lo lo' : Nat} (m : Memory) (hle : lo' ≤ lo) (h : Memory.wfFrom lo m = true) :
    Memory.wfFrom lo' m = true := by
  cases m with
  | nil => rfl
  | cons cell m =>
    obtain ⟨k, v⟩ := cell
    simp only [Memory.wfFrom, Bool.and_eq_true, decide_eq_true_eq] at h ⊢
    exact ⟨⟨⟨by omega, h.1.1.2⟩, h.1.2⟩, h.2⟩

/-- A key below the form's first is not listed. -/
theorem Memory.load_of_lt {lo a : Nat} (m : Memory) (h : Memory.wfFrom lo m = true) (ha : a < lo) :
    Memory.load m a = unlistedByte := by
  induction m generalizing lo with
  | nil => rfl
  | cons cell m ih =>
    obtain ⟨k, v⟩ := cell
    simp only [Memory.wfFrom, Bool.and_eq_true, decide_eq_true_eq] at h
    have hk : k ≠ a := by omega
    simp only [Memory.load, hk, if_false]
    exact ih h.2 (by omega)

/-- Putting a byte in front keeps the form. -/
theorem Memory.wfFrom_consCell {lo k : Nat} {v : Byte} {m : Memory} (hlo : lo ≤ k) (hk : isStorageKey k = true)
    (h : Memory.wfFrom (k + 1) m = true) : Memory.wfFrom lo (Memory.consCell k v m) = true := by
  unfold Memory.consCell
  split
  · exact Memory.wfFrom_mono m (by omega) h
  · rename_i hv
    simp [Memory.wfFrom, hlo, hk, hv, h]

/-- A load after putting a byte in front. -/
theorem Memory.load_consCell {k : Nat} {v : Byte} {m : Memory} (h : Memory.wfFrom (k + 1) m = true) (a : Nat) :
    Memory.load (Memory.consCell k v m) a = if k = a then v else Memory.load m a := by
  unfold Memory.consCell
  split
  · rename_i hv
    split
    · subst_vars; exact Memory.load_of_lt m h (by omega)
    · rfl
  · rfl

/-! ### Store -/

/-- A store keeps the form. -/
theorem Memory.wfFrom_store {lo a : Nat} {v : Byte} (m : Memory) (hlo : lo ≤ a) (ha : isStorageKey a = true)
    (h : Memory.wfFrom lo m = true) : Memory.wfFrom lo (Memory.store m a v) = true := by
  induction m generalizing lo with
  | nil => exact Memory.wfFrom_consCell hlo ha rfl
  | cons cell m ih =>
    obtain ⟨k, w⟩ := cell
    simp only [Memory.wfFrom, Bool.and_eq_true, decide_eq_true_eq] at h
    obtain ⟨⟨⟨hk, hs⟩, hw⟩, hm⟩ := h
    unfold Memory.store
    split
    · refine Memory.wfFrom_consCell hlo ha ?_
      simp only [Memory.wfFrom, Bool.and_eq_true, decide_eq_true_eq]
      exact ⟨⟨⟨by omega, hs⟩, hw⟩, hm⟩
    · split
      · rename_i heq; subst heq; exact Memory.wfFrom_consCell hlo ha hm
      · simp only [Memory.wfFrom, Bool.and_eq_true, decide_eq_true_eq]
        exact ⟨⟨⟨hk, hs⟩, hw⟩, ih (by omega) hm⟩

theorem Memory.wf_store {a : Nat} {v : Byte} {m : Memory} (ha : isStorageKey a = true) (h : Memory.wf m = true) :
    Memory.wf (Memory.store m a v) = true :=
  Memory.wfFrom_store m (Nat.zero_le a) ha h

/-- Read after write: the byte stored under its own key, every other key as before. -/
theorem Memory.load_store_from {lo : Nat} (m : Memory) (h : Memory.wfFrom lo m = true) (a b : Nat) (v : Byte) :
    Memory.load (Memory.store m a v) b = if a = b then v else Memory.load m b := by
  induction m generalizing lo with
  | nil => exact Memory.load_consCell rfl b
  | cons cell m ih =>
    obtain ⟨k, w⟩ := cell
    simp only [Memory.wfFrom, Bool.and_eq_true, decide_eq_true_eq] at h
    obtain ⟨⟨⟨hk, hs⟩, hw⟩, hm⟩ := h
    unfold Memory.store
    split
    · refine Memory.load_consCell ?_ b
      simp only [Memory.wfFrom, Bool.and_eq_true, decide_eq_true_eq]
      exact ⟨⟨⟨by omega, hs⟩, hw⟩, hm⟩
    · split
      · rename_i heq; subst heq
        rw [Memory.load_consCell hm]
        simp only [Memory.load]
        split <;> rfl
      · simp only [Memory.load, ih hm]
        split <;> split <;> first | rfl | omega

theorem Memory.load_store {m : Memory} (h : Memory.wf m = true) (a b : Nat) (v : Byte) :
    Memory.load (Memory.store m a v) b = if a = b then v else Memory.load m b :=
  Memory.load_store_from m h a b v

/-! ### A sequence of stores -/

/-- The keys of a block of storage bytes are storage keys. -/
def BlockOfStorage (k n : Nat) : Prop := ∀ i, k ≤ i → i < k + n → isStorageKey i = true

theorem Memory.wf_storeBytes (bs : List Byte) {k : Nat} {m : Memory} (hb : BlockOfStorage k bs.length)
    (h : Memory.wf m = true) : Memory.wf (Memory.storeBytes m k bs) = true := by
  induction bs generalizing k m with
  | nil => exact h
  | cons b bs ih =>
    rw [List.length_cons] at hb
    exact ih (fun i h1 h2 => hb i (by omega) (by omega)) (Memory.wf_store (hb k (by omega) (by omega)) h)

/-- After a sequence of stores: the bytes of the sequence on its keys, every other key as before. -/
theorem Memory.load_storeBytes (bs : List Byte) {k : Nat} {m : Memory} (hb : BlockOfStorage k bs.length)
    (h : Memory.wf m = true) (a : Nat) :
    Memory.load (Memory.storeBytes m k bs) a =
      if k ≤ a ∧ a < k + bs.length then bs.getD (a - k) unlistedByte else Memory.load m a := by
  induction bs generalizing k m with
  | nil =>
    rw [if_neg (by rw [List.length_nil]; omega)]; rfl
  | cons b bs ih =>
    rw [List.length_cons] at hb
    have hk : isStorageKey k = true := hb k (by omega) (by omega)
    rw [Memory.storeBytes, ih (fun i h1 h2 => hb i (by omega) (by omega)) (Memory.wf_store hk h),
      Memory.load_store h, List.length_cons]
    rcases Nat.lt_trichotomy a k with hlt | heq | hgt
    · rw [if_neg (by omega), if_neg (by omega), if_neg (by omega)]
    · subst heq
      rw [if_neg (by omega), if_pos rfl, if_pos (by omega), Nat.sub_self, List.getD_cons_zero]
    · have hak : a - k = (a - (k + 1)) + 1 := by omega
      by_cases hin : a < k + 1 + bs.length
      · rw [if_pos (by omega), if_pos (by omega), hak, List.getD_cons_succ]
      · rw [if_neg (by omega), if_neg (by omega), if_neg (by omega)]

/-! ### Tabulation -/

theorem Memory.wfFrom_tabulate (f : Nat → Byte) (n : Nat) {k : Nat} {rest : Memory} (hb : BlockOfStorage k n)
    (h : Memory.wfFrom (k + n) rest = true) : Memory.wfFrom k (Memory.tabulate f k n rest) = true := by
  induction n generalizing k with
  | zero => exact h
  | succ n ih =>
    refine Memory.wfFrom_consCell (Nat.le_refl k) (hb k (by omega) (by omega)) ?_
    exact ih (fun i h1 h2 => hb i (by omega) (by omega)) (by rwa [Nat.add_right_comm, Nat.add_assoc])

theorem Memory.load_tabulate (f : Nat → Byte) (n : Nat) {k : Nat} {rest : Memory} (hb : BlockOfStorage k n)
    (h : Memory.wfFrom (k + n) rest = true) (a : Nat) :
    Memory.load (Memory.tabulate f k n rest) a = if k ≤ a ∧ a < k + n then f a else Memory.load rest a := by
  induction n generalizing k with
  | zero => rw [if_neg (by omega)]; rfl
  | succ n ih =>
    have hb' : BlockOfStorage (k + 1) n := fun i h1 h2 => hb i (by omega) (by omega)
    have h' : Memory.wfFrom (k + 1 + n) rest = true := by rwa [Nat.add_right_comm, Nat.add_assoc]
    rw [Memory.tabulate, Memory.load_consCell (Memory.wfFrom_tabulate f n hb' h'), ih hb' h']
    by_cases hk : k = a
    · subst hk; rw [if_pos rfl, if_pos (by omega)]
    · by_cases hin : k + 1 ≤ a ∧ a < k + 1 + n
      · rw [if_neg hk, if_pos hin, if_pos (by omega)]
      · rw [if_neg hk, if_neg hin, if_neg (by omega)]

/-- The storage keys by number (R51). -/
theorem isStorageKey_iff (k : Nat) :
    isStorageKey k = true ↔ k < 0x8000 ∨ (0xC000 ≤ k ∧ k < 0xE000) ∨ (0xFF80 ≤ k ∧ k < 0xFFFF) := by
  simp only [isStorageKey, Bool.or_eq_true, decide_eq_true_eq, or_assoc]
  simp only [romBase, romSize, wramBase, wramSize, hramBase, hramSize]

theorem block_rom : BlockOfStorage romBase romSize := fun i h1 h2 => by
  rw [isStorageKey_iff]; simp only [romBase, romSize] at h1 h2; omega

theorem block_wram : BlockOfStorage wramBase wramSize := fun i h1 h2 => by
  rw [isStorageKey_iff]; simp only [wramBase, wramSize] at h1 h2; omega

theorem block_hram : BlockOfStorage hramBase hramSize := fun i h1 h2 => by
  rw [isStorageKey_iff]; simp only [hramBase, hramSize] at h1 h2; omega

theorem Memory.wfFrom_ofFn_hram (f : Nat → Byte) :
    Memory.wfFrom hramBase (Memory.tabulate f hramBase hramSize []) = true :=
  Memory.wfFrom_tabulate f hramSize block_hram rfl

theorem Memory.wfFrom_ofFn_wram (f : Nat → Byte) : Memory.wfFrom wramBase
    (Memory.tabulate f wramBase wramSize (Memory.tabulate f hramBase hramSize [])) = true :=
  Memory.wfFrom_tabulate f wramSize block_wram
    (Memory.wfFrom_mono _ (by decide) (Memory.wfFrom_ofFn_hram f))

/-- Any contents of the three arrays make a memory in canonical form. -/
theorem Memory.wf_ofFn (f : Nat → Byte) : Memory.wf (Memory.ofFn f) = true := by
  rw [Memory.ofFn]
  exact Memory.wfFrom_tabulate f romSize block_rom
    (Memory.wfFrom_mono _ (by decide) (Memory.wfFrom_ofFn_wram f))

/-- A memory made from a function holds, on every storage key, what the function says. -/
theorem Memory.load_ofFn (f : Nat → Byte) {k : Nat} (hk : isStorageKey k = true) :
    Memory.load (Memory.ofFn f) k = f k := by
  rw [isStorageKey_iff] at hk
  rw [Memory.ofFn, Memory.load_tabulate f romSize block_rom
      (Memory.wfFrom_mono _ (by decide) (Memory.wfFrom_ofFn_wram f)),
    Memory.load_tabulate f wramSize block_wram
      (Memory.wfFrom_mono _ (by decide) (Memory.wfFrom_ofFn_hram f)),
    Memory.load_tabulate f hramSize block_hram rfl]
  norm_num only [romBase, romSize, wramBase, wramSize, hramBase, hramSize]
  split_ifs <;> first | rfl | omega

end Sys2Proof.Machine
end

