-- ==== Sys2Proof/Laws/State.lean ====
section
/-! SUPPORT. What each update of the state does to each field: true by unfolding the update once. -/

namespace Sys2Proof.Machine

variable (s : State)

/-! ### `setPc` -/

@[simp] theorem State.setPc_pc (v : Word) : (s.setPc v).pc = v := rfl
@[simp] theorem State.setPc_a (v : Word) : (s.setPc v).a = s.a := rfl
@[simp] theorem State.setPc_f (v : Word) : (s.setPc v).f = s.f := rfl
@[simp] theorem State.setPc_b (v : Word) : (s.setPc v).b = s.b := rfl
@[simp] theorem State.setPc_c (v : Word) : (s.setPc v).c = s.c := rfl
@[simp] theorem State.setPc_d (v : Word) : (s.setPc v).d = s.d := rfl
@[simp] theorem State.setPc_e (v : Word) : (s.setPc v).e = s.e := rfl
@[simp] theorem State.setPc_h (v : Word) : (s.setPc v).h = s.h := rfl
@[simp] theorem State.setPc_l (v : Word) : (s.setPc v).l = s.l := rfl
@[simp] theorem State.setPc_sp (v : Word) : (s.setPc v).sp = s.sp := rfl
@[simp] theorem State.setPc_run (v : Word) : (s.setPc v).run = s.run := rfl
@[simp] theorem State.setPc_totalCycles (v : Word) : (s.setPc v).totalCycles = s.totalCycles := rfl
@[simp] theorem State.setPc_mem (v : Word) : (s.setPc v).mem = s.mem := rfl
@[simp] theorem State.setPc_policy (v : Word) : (s.setPc v).policy = s.policy := rfl
@[simp] theorem State.setPc_out (v : Word) : (s.setPc v).out = s.out := rfl
@[simp] theorem State.setPc_failedLoads (v : Word) : (s.setPc v).failedLoads = s.failedLoads := rfl

/-! ### `setSp` -/

@[simp] theorem State.setSp_sp (v : Word) : (s.setSp v).sp = v := rfl
@[simp] theorem State.setSp_a (v : Word) : (s.setSp v).a = s.a := rfl
@[simp] theorem State.setSp_f (v : Word) : (s.setSp v).f = s.f := rfl
@[simp] theorem State.setSp_b (v : Word) : (s.setSp v).b = s.b := rfl
@[simp] theorem State.setSp_c (v : Word) : (s.setSp v).c = s.c := rfl
@[simp] theorem State.setSp_d (v : Word) : (s.setSp v).d = s.d := rfl
@[simp] theorem State.setSp_e (v : Word) : (s.setSp v).e = s.e := rfl
@[simp] theorem State.setSp_h (v : Word) : (s.setSp v).h = s.h := rfl
@[simp] theorem State.setSp_l (v : Word) : (s.setSp v).l = s.l := rfl
@[simp] theorem State.setSp_pc (v : Word) : (s.setSp v).pc = s.pc := rfl
@[simp] theorem State.setSp_run (v : Word) : (s.setSp v).run = s.run := rfl
@[simp] theorem State.setSp_totalCycles (v : Word) : (s.setSp v).totalCycles = s.totalCycles := rfl
@[simp] theorem State.setSp_mem (v : Word) : (s.setSp v).mem = s.mem := rfl
@[simp] theorem State.setSp_policy (v : Word) : (s.setSp v).policy = s.policy := rfl
@[simp] theorem State.setSp_out (v : Word) : (s.setSp v).out = s.out := rfl
@[simp] theorem State.setSp_failedLoads (v : Word) : (s.setSp v).failedLoads = s.failedLoads := rfl

/-! ### `accrue` -/

@[simp] theorem State.accrue_totalCycles (n : Nat) : (s.accrue n).totalCycles = s.totalCycles + n := rfl
@[simp] theorem State.accrue_a (n : Nat) : (s.accrue n).a = s.a := rfl
@[simp] theorem State.accrue_f (n : Nat) : (s.accrue n).f = s.f := rfl
@[simp] theorem State.accrue_b (n : Nat) : (s.accrue n).b = s.b := rfl
@[simp] theorem State.accrue_c (n : Nat) : (s.accrue n).c = s.c := rfl
@[simp] theorem State.accrue_d (n : Nat) : (s.accrue n).d = s.d := rfl
@[simp] theorem State.accrue_e (n : Nat) : (s.accrue n).e = s.e := rfl
@[simp] theorem State.accrue_h (n : Nat) : (s.accrue n).h = s.h := rfl
@[simp] theorem State.accrue_l (n : Nat) : (s.accrue n).l = s.l := rfl
@[simp] theorem State.accrue_sp (n : Nat) : (s.accrue n).sp = s.sp := rfl
@[simp] theorem State.accrue_pc (n : Nat) : (s.accrue n).pc = s.pc := rfl
@[simp] theorem State.accrue_run (n : Nat) : (s.accrue n).run = s.run := rfl
@[simp] theorem State.accrue_mem (n : Nat) : (s.accrue n).mem = s.mem := rfl
@[simp] theorem State.accrue_policy (n : Nat) : (s.accrue n).policy = s.policy := rfl
@[simp] theorem State.accrue_out (n : Nat) : (s.accrue n).out = s.out := rfl
@[simp] theorem State.accrue_failedLoads (n : Nat) : (s.accrue n).failedLoads = s.failedLoads := rfl

/-! ### `returnCost` -/

@[simp] theorem State.returnCost_out (n : Nat) : (s.returnCost n).out = { s.out with cost := some n } := rfl
@[simp] theorem State.returnCost_a (n : Nat) : (s.returnCost n).a = s.a := rfl
@[simp] theorem State.returnCost_f (n : Nat) : (s.returnCost n).f = s.f := rfl
@[simp] theorem State.returnCost_b (n : Nat) : (s.returnCost n).b = s.b := rfl
@[simp] theorem State.returnCost_c (n : Nat) : (s.returnCost n).c = s.c := rfl
@[simp] theorem State.returnCost_d (n : Nat) : (s.returnCost n).d = s.d := rfl
@[simp] theorem State.returnCost_e (n : Nat) : (s.returnCost n).e = s.e := rfl
@[simp] theorem State.returnCost_h (n : Nat) : (s.returnCost n).h = s.h := rfl
@[simp] theorem State.returnCost_l (n : Nat) : (s.returnCost n).l = s.l := rfl
@[simp] theorem State.returnCost_sp (n : Nat) : (s.returnCost n).sp = s.sp := rfl
@[simp] theorem State.returnCost_pc (n : Nat) : (s.returnCost n).pc = s.pc := rfl
@[simp] theorem State.returnCost_run (n : Nat) : (s.returnCost n).run = s.run := rfl
@[simp] theorem State.returnCost_totalCycles (n : Nat) : (s.returnCost n).totalCycles = s.totalCycles := rfl
@[simp] theorem State.returnCost_mem (n : Nat) : (s.returnCost n).mem = s.mem := rfl
@[simp] theorem State.returnCost_policy (n : Nat) : (s.returnCost n).policy = s.policy := rfl
@[simp] theorem State.returnCost_failedLoads (n : Nat) : (s.returnCost n).failedLoads = s.failedLoads := rfl

/-! ### `beginStep` -/

@[simp] theorem State.beginStep_out : (s.beginStep).out = StepOutput.empty := rfl
@[simp] theorem State.beginStep_a : (s.beginStep).a = s.a := rfl
@[simp] theorem State.beginStep_f : (s.beginStep).f = s.f := rfl
@[simp] theorem State.beginStep_b : (s.beginStep).b = s.b := rfl
@[simp] theorem State.beginStep_c : (s.beginStep).c = s.c := rfl
@[simp] theorem State.beginStep_d : (s.beginStep).d = s.d := rfl
@[simp] theorem State.beginStep_e : (s.beginStep).e = s.e := rfl
@[simp] theorem State.beginStep_h : (s.beginStep).h = s.h := rfl
@[simp] theorem State.beginStep_l : (s.beginStep).l = s.l := rfl
@[simp] theorem State.beginStep_sp : (s.beginStep).sp = s.sp := rfl
@[simp] theorem State.beginStep_pc : (s.beginStep).pc = s.pc := rfl
@[simp] theorem State.beginStep_run : (s.beginStep).run = s.run := rfl
@[simp] theorem State.beginStep_totalCycles : (s.beginStep).totalCycles = s.totalCycles := rfl
@[simp] theorem State.beginStep_mem : (s.beginStep).mem = s.mem := rfl
@[simp] theorem State.beginStep_policy : (s.beginStep).policy = s.policy := rfl
@[simp] theorem State.beginStep_failedLoads : (s.beginStep).failedLoads = s.failedLoads := rfl

/-! ### `setRunning` -/

@[simp] theorem State.setRunning_run : (s.setRunning).run = RunState.running := rfl
@[simp] theorem State.setRunning_a : (s.setRunning).a = s.a := rfl
@[simp] theorem State.setRunning_f : (s.setRunning).f = s.f := rfl
@[simp] theorem State.setRunning_b : (s.setRunning).b = s.b := rfl
@[simp] theorem State.setRunning_c : (s.setRunning).c = s.c := rfl
@[simp] theorem State.setRunning_d : (s.setRunning).d = s.d := rfl
@[simp] theorem State.setRunning_e : (s.setRunning).e = s.e := rfl
@[simp] theorem State.setRunning_h : (s.setRunning).h = s.h := rfl
@[simp] theorem State.setRunning_l : (s.setRunning).l = s.l := rfl
@[simp] theorem State.setRunning_sp : (s.setRunning).sp = s.sp := rfl
@[simp] theorem State.setRunning_pc : (s.setRunning).pc = s.pc := rfl
@[simp] theorem State.setRunning_totalCycles : (s.setRunning).totalCycles = s.totalCycles := rfl
@[simp] theorem State.setRunning_mem : (s.setRunning).mem = s.mem := rfl
@[simp] theorem State.setRunning_policy : (s.setRunning).policy = s.policy := rfl
@[simp] theorem State.setRunning_out : (s.setRunning).out = s.out := rfl
@[simp] theorem State.setRunning_failedLoads : (s.setRunning).failedLoads = s.failedLoads := rfl

/-! ### `setReg` and `getReg` -/

@[simp] theorem State.setReg_sp (r : Reg8) (v : Byte) : (s.setReg r v).sp = s.sp := by cases r <;> rfl
@[simp] theorem State.setReg_pc (r : Reg8) (v : Byte) : (s.setReg r v).pc = s.pc := by cases r <;> rfl
@[simp] theorem State.setReg_run (r : Reg8) (v : Byte) : (s.setReg r v).run = s.run := by cases r <;> rfl
@[simp] theorem State.setReg_totalCycles (r : Reg8) (v : Byte) : (s.setReg r v).totalCycles = s.totalCycles := by cases r <;> rfl
@[simp] theorem State.setReg_mem (r : Reg8) (v : Byte) : (s.setReg r v).mem = s.mem := by cases r <;> rfl
@[simp] theorem State.setReg_policy (r : Reg8) (v : Byte) : (s.setReg r v).policy = s.policy := by cases r <;> rfl
@[simp] theorem State.setReg_out (r : Reg8) (v : Byte) : (s.setReg r v).out = s.out := by cases r <;> rfl
@[simp] theorem State.setReg_failedLoads (r : Reg8) (v : Byte) : (s.setReg r v).failedLoads = s.failedLoads := by cases r <;> rfl

/-- What a register write stores: the byte itself, but for F, where it is masked (R24). -/
def regStored (r : Reg8) (v : Byte) : Byte := if r = .F then v &&& 0xF0#8 else v

/-- Reading after writing a register: the stored byte there, every other register as before. -/
theorem State.getReg_setReg (r q : Reg8) (v : Byte) :
    (s.setReg r v).getReg q = if q = r then regStored r v else s.getReg q := by
  cases r <;> cases q <;> rfl

@[simp] theorem State.setReg_A_a (v : Byte) : (s.setReg .A v).a = v := rfl
@[simp] theorem State.setReg_A_f (v : Byte) : (s.setReg .A v).f = s.f := rfl
@[simp] theorem State.setReg_A_b (v : Byte) : (s.setReg .A v).b = s.b := rfl
@[simp] theorem State.setReg_A_c (v : Byte) : (s.setReg .A v).c = s.c := rfl
@[simp] theorem State.setReg_A_d (v : Byte) : (s.setReg .A v).d = s.d := rfl
@[simp] theorem State.setReg_A_e (v : Byte) : (s.setReg .A v).e = s.e := rfl
@[simp] theorem State.setReg_A_h (v : Byte) : (s.setReg .A v).h = s.h := rfl
@[simp] theorem State.setReg_A_l (v : Byte) : (s.setReg .A v).l = s.l := rfl
@[simp] theorem State.setReg_F_a (v : Byte) : (s.setReg .F v).a = s.a := rfl
@[simp] theorem State.setReg_F_f (v : Byte) : (s.setReg .F v).f = v &&& 0xF0#8 := rfl
@[simp] theorem State.setReg_F_b (v : Byte) : (s.setReg .F v).b = s.b := rfl
@[simp] theorem State.setReg_F_c (v : Byte) : (s.setReg .F v).c = s.c := rfl
@[simp] theorem State.setReg_F_d (v : Byte) : (s.setReg .F v).d = s.d := rfl
@[simp] theorem State.setReg_F_e (v : Byte) : (s.setReg .F v).e = s.e := rfl
@[simp] theorem State.setReg_F_h (v : Byte) : (s.setReg .F v).h = s.h := rfl
@[simp] theorem State.setReg_F_l (v : Byte) : (s.setReg .F v).l = s.l := rfl
@[simp] theorem State.setReg_B_a (v : Byte) : (s.setReg .B v).a = s.a := rfl
@[simp] theorem State.setReg_B_f (v : Byte) : (s.setReg .B v).f = s.f := rfl
@[simp] theorem State.setReg_B_b (v : Byte) : (s.setReg .B v).b = v := rfl
@[simp] theorem State.setReg_B_c (v : Byte) : (s.setReg .B v).c = s.c := rfl
@[simp] theorem State.setReg_B_d (v : Byte) : (s.setReg .B v).d = s.d := rfl
@[simp] theorem State.setReg_B_e (v : Byte) : (s.setReg .B v).e = s.e := rfl
@[simp] theorem State.setReg_B_h (v : Byte) : (s.setReg .B v).h = s.h := rfl
@[simp] theorem State.setReg_B_l (v : Byte) : (s.setReg .B v).l = s.l := rfl
@[simp] theorem State.setReg_C_a (v : Byte) : (s.setReg .C v).a = s.a := rfl
@[simp] theorem State.setReg_C_f (v : Byte) : (s.setReg .C v).f = s.f := rfl
@[simp] theorem State.setReg_C_b (v : Byte) : (s.setReg .C v).b = s.b := rfl
@[simp] theorem State.setReg_C_c (v : Byte) : (s.setReg .C v).c = v := rfl
@[simp] theorem State.setReg_C_d (v : Byte) : (s.setReg .C v).d = s.d := rfl
@[simp] theorem State.setReg_C_e (v : Byte) : (s.setReg .C v).e = s.e := rfl
@[simp] theorem State.setReg_C_h (v : Byte) : (s.setReg .C v).h = s.h := rfl
@[simp] theorem State.setReg_C_l (v : Byte) : (s.setReg .C v).l = s.l := rfl
@[simp] theorem State.setReg_D_a (v : Byte) : (s.setReg .D v).a = s.a := rfl
@[simp] theorem State.setReg_D_f (v : Byte) : (s.setReg .D v).f = s.f := rfl
@[simp] theorem State.setReg_D_b (v : Byte) : (s.setReg .D v).b = s.b := rfl
@[simp] theorem State.setReg_D_c (v : Byte) : (s.setReg .D v).c = s.c := rfl
@[simp] theorem State.setReg_D_d (v : Byte) : (s.setReg .D v).d = v := rfl
@[simp] theorem State.setReg_D_e (v : Byte) : (s.setReg .D v).e = s.e := rfl
@[simp] theorem State.setReg_D_h (v : Byte) : (s.setReg .D v).h = s.h := rfl
@[simp] theorem State.setReg_D_l (v : Byte) : (s.setReg .D v).l = s.l := rfl
@[simp] theorem State.setReg_E_a (v : Byte) : (s.setReg .E v).a = s.a := rfl
@[simp] theorem State.setReg_E_f (v : Byte) : (s.setReg .E v).f = s.f := rfl
@[simp] theorem State.setReg_E_b (v : Byte) : (s.setReg .E v).b = s.b := rfl
@[simp] theorem State.setReg_E_c (v : Byte) : (s.setReg .E v).c = s.c := rfl
@[simp] theorem State.setReg_E_d (v : Byte) : (s.setReg .E v).d = s.d := rfl
@[simp] theorem State.setReg_E_e (v : Byte) : (s.setReg .E v).e = v := rfl
@[simp] theorem State.setReg_E_h (v : Byte) : (s.setReg .E v).h = s.h := rfl
@[simp] theorem State.setReg_E_l (v : Byte) : (s.setReg .E v).l = s.l := rfl
@[simp] theorem State.setReg_H_a (v : Byte) : (s.setReg .H v).a = s.a := rfl
@[simp] theorem State.setReg_H_f (v : Byte) : (s.setReg .H v).f = s.f := rfl
@[simp] theorem State.setReg_H_b (v : Byte) : (s.setReg .H v).b = s.b := rfl
@[simp] theorem State.setReg_H_c (v : Byte) : (s.setReg .H v).c = s.c := rfl
@[simp] theorem State.setReg_H_d (v : Byte) : (s.setReg .H v).d = s.d := rfl
@[simp] theorem State.setReg_H_e (v : Byte) : (s.setReg .H v).e = s.e := rfl
@[simp] theorem State.setReg_H_h (v : Byte) : (s.setReg .H v).h = v := rfl
@[simp] theorem State.setReg_H_l (v : Byte) : (s.setReg .H v).l = s.l := rfl
@[simp] theorem State.setReg_L_a (v : Byte) : (s.setReg .L v).a = s.a := rfl
@[simp] theorem State.setReg_L_f (v : Byte) : (s.setReg .L v).f = s.f := rfl
@[simp] theorem State.setReg_L_b (v : Byte) : (s.setReg .L v).b = s.b := rfl
@[simp] theorem State.setReg_L_c (v : Byte) : (s.setReg .L v).c = s.c := rfl
@[simp] theorem State.setReg_L_d (v : Byte) : (s.setReg .L v).d = s.d := rfl
@[simp] theorem State.setReg_L_e (v : Byte) : (s.setReg .L v).e = s.e := rfl
@[simp] theorem State.setReg_L_h (v : Byte) : (s.setReg .L v).h = s.h := rfl
@[simp] theorem State.setReg_L_l (v : Byte) : (s.setReg .L v).l = v := rfl

@[simp] theorem State.getReg_A : s.getReg .A = s.a := rfl
@[simp] theorem State.getReg_F : s.getReg .F = s.f := rfl
@[simp] theorem State.getReg_B : s.getReg .B = s.b := rfl
@[simp] theorem State.getReg_C : s.getReg .C = s.c := rfl
@[simp] theorem State.getReg_D : s.getReg .D = s.d := rfl
@[simp] theorem State.getReg_E : s.getReg .E = s.e := rfl
@[simp] theorem State.getReg_H : s.getReg .H = s.h := rfl
@[simp] theorem State.getReg_L : s.getReg .L = s.l := rfl

/-! ### `setFlags` and `setFlag`: writes of F, masked by `setReg` -/

@[simp] theorem State.setFlags_a (z n h c : Bool) : (s.setFlags z n h c).a = s.a := rfl
@[simp] theorem State.setFlags_b (z n h c : Bool) : (s.setFlags z n h c).b = s.b := rfl
@[simp] theorem State.setFlags_c (z n h c : Bool) : (s.setFlags z n h c).c = s.c := rfl
@[simp] theorem State.setFlags_d (z n h c : Bool) : (s.setFlags z n h c).d = s.d := rfl
@[simp] theorem State.setFlags_e (z n h c : Bool) : (s.setFlags z n h c).e = s.e := rfl
@[simp] theorem State.setFlags_h (z n h c : Bool) : (s.setFlags z n h c).h = s.h := rfl
@[simp] theorem State.setFlags_l (z n h c : Bool) : (s.setFlags z n h c).l = s.l := rfl
@[simp] theorem State.setFlags_sp (z n h c : Bool) : (s.setFlags z n h c).sp = s.sp := rfl
@[simp] theorem State.setFlags_pc (z n h c : Bool) : (s.setFlags z n h c).pc = s.pc := rfl
@[simp] theorem State.setFlags_run (z n h c : Bool) : (s.setFlags z n h c).run = s.run := rfl
@[simp] theorem State.setFlags_totalCycles (z n h c : Bool) : (s.setFlags z n h c).totalCycles = s.totalCycles := rfl
@[simp] theorem State.setFlags_mem (z n h c : Bool) : (s.setFlags z n h c).mem = s.mem := rfl
@[simp] theorem State.setFlags_policy (z n h c : Bool) : (s.setFlags z n h c).policy = s.policy := rfl
@[simp] theorem State.setFlags_out (z n h c : Bool) : (s.setFlags z n h c).out = s.out := rfl
@[simp] theorem State.setFlags_failedLoads (z n h c : Bool) : (s.setFlags z n h c).failedLoads = s.failedLoads := rfl
@[simp] theorem State.setFlag_a (fl : Flag) (on : Bool) : (s.setFlag fl on).a = s.a := rfl
@[simp] theorem State.setFlag_b (fl : Flag) (on : Bool) : (s.setFlag fl on).b = s.b := rfl
@[simp] theorem State.setFlag_c (fl : Flag) (on : Bool) : (s.setFlag fl on).c = s.c := rfl
@[simp] theorem State.setFlag_d (fl : Flag) (on : Bool) : (s.setFlag fl on).d = s.d := rfl
@[simp] theorem State.setFlag_e (fl : Flag) (on : Bool) : (s.setFlag fl on).e = s.e := rfl
@[simp] theorem State.setFlag_h (fl : Flag) (on : Bool) : (s.setFlag fl on).h = s.h := rfl
@[simp] theorem State.setFlag_l (fl : Flag) (on : Bool) : (s.setFlag fl on).l = s.l := rfl
@[simp] theorem State.setFlag_sp (fl : Flag) (on : Bool) : (s.setFlag fl on).sp = s.sp := rfl
@[simp] theorem State.setFlag_pc (fl : Flag) (on : Bool) : (s.setFlag fl on).pc = s.pc := rfl
@[simp] theorem State.setFlag_run (fl : Flag) (on : Bool) : (s.setFlag fl on).run = s.run := rfl
@[simp] theorem State.setFlag_totalCycles (fl : Flag) (on : Bool) : (s.setFlag fl on).totalCycles = s.totalCycles := rfl
@[simp] theorem State.setFlag_mem (fl : Flag) (on : Bool) : (s.setFlag fl on).mem = s.mem := rfl
@[simp] theorem State.setFlag_policy (fl : Flag) (on : Bool) : (s.setFlag fl on).policy = s.policy := rfl
@[simp] theorem State.setFlag_out (fl : Flag) (on : Bool) : (s.setFlag fl on).out = s.out := rfl
@[simp] theorem State.setFlag_failedLoads (fl : Flag) (on : Bool) : (s.setFlag fl on).failedLoads = s.failedLoads := rfl
@[simp] theorem State.setFlags_f (z n h c : Bool) : (s.setFlags z n h c).f = flagsByte z n h c &&& 0xF0#8 := rfl

/-! ### `setPair`: two register writes -/

@[simp] theorem State.setPair_sp (p : Pair) (v : Word) : (s.setPair p v).sp = s.sp := by cases p <;> rfl
@[simp] theorem State.setPair_pc (p : Pair) (v : Word) : (s.setPair p v).pc = s.pc := by cases p <;> rfl
@[simp] theorem State.setPair_run (p : Pair) (v : Word) : (s.setPair p v).run = s.run := by cases p <;> rfl
@[simp] theorem State.setPair_totalCycles (p : Pair) (v : Word) : (s.setPair p v).totalCycles = s.totalCycles := by cases p <;> rfl
@[simp] theorem State.setPair_mem (p : Pair) (v : Word) : (s.setPair p v).mem = s.mem := by cases p <;> rfl
@[simp] theorem State.setPair_policy (p : Pair) (v : Word) : (s.setPair p v).policy = s.policy := by cases p <;> rfl
@[simp] theorem State.setPair_out (p : Pair) (v : Word) : (s.setPair p v).out = s.out := by cases p <;> rfl
@[simp] theorem State.setPair_failedLoads (p : Pair) (v : Word) : (s.setPair p v).failedLoads = s.failedLoads := by cases p <;> rfl

/-! ### `report`: at most the event given out -/

@[simp] theorem State.report_a (op : Byte) (pc0 : Word) : (s.report op pc0).a = s.a := by
  unfold State.report; split <;> rfl
@[simp] theorem State.report_f (op : Byte) (pc0 : Word) : (s.report op pc0).f = s.f := by
  unfold State.report; split <;> rfl
@[simp] theorem State.report_b (op : Byte) (pc0 : Word) : (s.report op pc0).b = s.b := by
  unfold State.report; split <;> rfl
@[simp] theorem State.report_c (op : Byte) (pc0 : Word) : (s.report op pc0).c = s.c := by
  unfold State.report; split <;> rfl
@[simp] theorem State.report_d (op : Byte) (pc0 : Word) : (s.report op pc0).d = s.d := by
  unfold State.report; split <;> rfl
@[simp] theorem State.report_e (op : Byte) (pc0 : Word) : (s.report op pc0).e = s.e := by
  unfold State.report; split <;> rfl
@[simp] theorem State.report_h (op : Byte) (pc0 : Word) : (s.report op pc0).h = s.h := by
  unfold State.report; split <;> rfl
@[simp] theorem State.report_l (op : Byte) (pc0 : Word) : (s.report op pc0).l = s.l := by
  unfold State.report; split <;> rfl
@[simp] theorem State.report_sp (op : Byte) (pc0 : Word) : (s.report op pc0).sp = s.sp := by
  unfold State.report; split <;> rfl
@[simp] theorem State.report_pc (op : Byte) (pc0 : Word) : (s.report op pc0).pc = s.pc := by
  unfold State.report; split <;> rfl
@[simp] theorem State.report_run (op : Byte) (pc0 : Word) : (s.report op pc0).run = s.run := by
  unfold State.report; split <;> rfl
@[simp] theorem State.report_totalCycles (op : Byte) (pc0 : Word) : (s.report op pc0).totalCycles = s.totalCycles := by
  unfold State.report; split <;> rfl
@[simp] theorem State.report_mem (op : Byte) (pc0 : Word) : (s.report op pc0).mem = s.mem := by
  unfold State.report; split <;> rfl
@[simp] theorem State.report_policy (op : Byte) (pc0 : Word) : (s.report op pc0).policy = s.policy := by
  unfold State.report; split <;> rfl
@[simp] theorem State.report_failedLoads (op : Byte) (pc0 : Word) : (s.report op pc0).failedLoads = s.failedLoads := by
  unfold State.report; split <;> rfl
@[simp] theorem State.report_cost (op : Byte) (pc0 : Word) : (s.report op pc0).out.cost = s.out.cost := by
  unfold State.report; split <;> rfl
@[simp] theorem State.report_reads (op : Byte) (pc0 : Word) : (s.report op pc0).out.reads = s.out.reads := by
  unfold State.report; split <;> rfl

/-- The event of a report: the opcode and its address under `NopReport`, as before under `Nop` (R132). -/
theorem State.report_event (op : Byte) (pc0 : Word) :
    (s.report op pc0).out.event = if s.policy = .nopReport then some ⟨op, pc0⟩ else s.out.event := by
  unfold State.report; split <;> simp_all

/-! ### `write`: at most the memory -/

@[simp] theorem State.write_a (addr : Word) (v : Byte) : (s.write addr v).a = s.a := by
  unfold State.write; split <;> rfl
@[simp] theorem State.write_f (addr : Word) (v : Byte) : (s.write addr v).f = s.f := by
  unfold State.write; split <;> rfl
@[simp] theorem State.write_b (addr : Word) (v : Byte) : (s.write addr v).b = s.b := by
  unfold State.write; split <;> rfl
@[simp] theorem State.write_c (addr : Word) (v : Byte) : (s.write addr v).c = s.c := by
  unfold State.write; split <;> rfl
@[simp] theorem State.write_d (addr : Word) (v : Byte) : (s.write addr v).d = s.d := by
  unfold State.write; split <;> rfl
@[simp] theorem State.write_e (addr : Word) (v : Byte) : (s.write addr v).e = s.e := by
  unfold State.write; split <;> rfl
@[simp] theorem State.write_h (addr : Word) (v : Byte) : (s.write addr v).h = s.h := by
  unfold State.write; split <;> rfl
@[simp] theorem State.write_l (addr : Word) (v : Byte) : (s.write addr v).l = s.l := by
  unfold State.write; split <;> rfl
@[simp] theorem State.write_sp (addr : Word) (v : Byte) : (s.write addr v).sp = s.sp := by
  unfold State.write; split <;> rfl
@[simp] theorem State.write_pc (addr : Word) (v : Byte) : (s.write addr v).pc = s.pc := by
  unfold State.write; split <;> rfl
@[simp] theorem State.write_run (addr : Word) (v : Byte) : (s.write addr v).run = s.run := by
  unfold State.write; split <;> rfl
@[simp] theorem State.write_totalCycles (addr : Word) (v : Byte) : (s.write addr v).totalCycles = s.totalCycles := by
  unfold State.write; split <;> rfl
@[simp] theorem State.write_policy (addr : Word) (v : Byte) : (s.write addr v).policy = s.policy := by
  unfold State.write; split <;> rfl
@[simp] theorem State.write_out (addr : Word) (v : Byte) : (s.write addr v).out = s.out := by
  unfold State.write; split <;> rfl
@[simp] theorem State.write_failedLoads (addr : Word) (v : Byte) : (s.write addr v).failedLoads = s.failedLoads := by
  unfold State.write; split <;> rfl

/-! ### `fetch8`: PC and the record of reads -/

@[simp] theorem fetch8_fst : (fetch8 s).1 = s.read s.pc := rfl
@[simp] theorem fetch8_pc : (fetch8 s).2.pc = s.pc + 1#16 := rfl
@[simp] theorem fetch8_out : (fetch8 s).2.out = { s.out with reads := s.out.reads ++ [s.pc] } := rfl
@[simp] theorem fetch8_a : (fetch8 s).2.a = s.a := rfl
@[simp] theorem fetch8_f : (fetch8 s).2.f = s.f := rfl
@[simp] theorem fetch8_b : (fetch8 s).2.b = s.b := rfl
@[simp] theorem fetch8_c : (fetch8 s).2.c = s.c := rfl
@[simp] theorem fetch8_d : (fetch8 s).2.d = s.d := rfl
@[simp] theorem fetch8_e : (fetch8 s).2.e = s.e := rfl
@[simp] theorem fetch8_h : (fetch8 s).2.h = s.h := rfl
@[simp] theorem fetch8_l : (fetch8 s).2.l = s.l := rfl
@[simp] theorem fetch8_sp : (fetch8 s).2.sp = s.sp := rfl
@[simp] theorem fetch8_run : (fetch8 s).2.run = s.run := rfl
@[simp] theorem fetch8_totalCycles : (fetch8 s).2.totalCycles = s.totalCycles := rfl
@[simp] theorem fetch8_mem : (fetch8 s).2.mem = s.mem := rfl
@[simp] theorem fetch8_policy : (fetch8 s).2.policy = s.policy := rfl
@[simp] theorem fetch8_failedLoads : (fetch8 s).2.failedLoads = s.failedLoads := rfl

/-! ### Reads and the flags of a state depend on one field each -/

/-- A read depends on the memory alone (R60). -/
theorem State.read_eq_of_mem {s t : State} (h : t.mem = s.mem) (addr : Word) : t.read addr = s.read addr := by
  unfold State.read; rw [h]

@[simp] theorem fetch8_read (addr : Word) : (fetch8 s).2.read addr = s.read addr := rfl
@[simp] theorem State.beginStep_read (addr : Word) : s.beginStep.read addr = s.read addr := rfl

/-- A flag depends on F alone (R26). -/
theorem State.flag_eq_of_f {s t : State} (h : t.f = s.f) (fl : Flag) : t.flag fl = s.flag fl := by
  unfold State.flag; rw [h]

end Sys2Proof.Machine
end

