-- ==== Sys2Proof/Laws/AddressSpace.lean ====
section
/-! SUPPORT. The laws of the address decoder and of `Read`, `Write` and `LoadProgram` over a state. -/

namespace Sys2Proof.Machine

open Sys2Proof.Config

/-! ### The decoder -/

/-- The decoder, said once: an address lies in exactly one of the four mapped ranges or in none (R56, R57). -/
theorem decodeAddr_cases (addr : Word) :
    (addr.toNat < 0x8000 ∧ decodeAddr addr = .rom addr.toNat) ∨
    ((0xC000 ≤ addr.toNat ∧ addr.toNat < 0xE000) ∧ decodeAddr addr = .wram (addr.toNat - 0xC000)) ∨
    ((0xE000 ≤ addr.toNat ∧ addr.toNat < 0xFE00) ∧ decodeAddr addr = .wram (addr.toNat - 0xE000)) ∨
    ((0xFF80 ≤ addr.toNat ∧ addr.toNat < 0xFFFF) ∧ decodeAddr addr = .hram (addr.toNat - 0xFF80)) ∨
    (((0x8000 ≤ addr.toNat ∧ addr.toNat < 0xC000) ∨ (0xFE00 ≤ addr.toNat ∧ addr.toNat < 0xFF80) ∨
        addr.toNat = 0xFFFF) ∧ decodeAddr addr = .unmapped) := by
  have hlt := addr.isLt
  unfold decodeAddr
  norm_num only [romBase, romSize, wramBase, wramSize, mirrorBase, mirrorSize, hramBase, hramSize]
  by_cases h1 : addr.toNat < 32768
  · exact .inl ⟨h1, by simp only [h1, if_true, Nat.sub_zero]⟩
  · by_cases h2 : 49152 ≤ addr.toNat ∧ addr.toNat < 57344
    · exact .inr (.inl ⟨h2, by simp only [h1, h2, if_true, if_false, and_self]⟩)
    · by_cases h3 : 57344 ≤ addr.toNat ∧ addr.toNat < 65024
      · exact .inr (.inr (.inl ⟨h3, by rw [if_neg h1, if_neg h2, if_pos h3]⟩))
      · by_cases h4 : 65408 ≤ addr.toNat ∧ addr.toNat < 65535
        · exact .inr (.inr (.inr (.inl ⟨h4, by rw [if_neg h1, if_neg h2, if_neg h3, if_pos h4]⟩)))
        · exact .inr (.inr (.inr (.inr ⟨by omega, by rw [if_neg h1, if_neg h2, if_neg h3, if_neg h4]⟩)))

/-- The key of a mapped address is the key of a storage byte; a location has no key exactly when unmapped. -/
theorem Loc.key_eq_none {loc : Loc} : loc.key = none ↔ loc = .unmapped := by
  cases loc <;> simp [Loc.key]

/-- The key of every mapped address is a storage key. -/
theorem isStorageKey_of_key {addr : Word} {k : Nat} (h : (decodeAddr addr).key = some k) : isStorageKey k = true := by
  rw [isStorageKey_iff]
  rcases decodeAddr_cases addr with ⟨hr, hd⟩ | ⟨hr, hd⟩ | ⟨hr, hd⟩ | ⟨hr, hd⟩ | ⟨hr, hd⟩ <;>
    simp only [hd, Loc.key, romBase, wramBase, hramBase, Option.some.injEq, reduceCtorEq] at h <;> omega

/-- The unmapped addresses (R58). -/
theorem decodeAddr_unmapped_iff (addr : Word) :
    decodeAddr addr = .unmapped ↔
      (0x8000 ≤ addr.toNat ∧ addr.toNat < 0xC000) ∨ (0xFE00 ≤ addr.toNat ∧ addr.toNat < 0xFF80) ∨
        addr.toNat = 0xFFFF := by
  rcases decodeAddr_cases addr with ⟨hr, hd⟩ | ⟨hr, hd⟩ | ⟨hr, hd⟩ | ⟨hr, hd⟩ | ⟨hr, hd⟩ <;>
    simp only [hd, reduceCtorEq, false_iff, true_iff] <;> omega

/-- Two mapped addresses have one key only if they lead to one location. -/
theorem decodeAddr_eq_of_key {x y : Word} {k : Nat} (hx : (decodeAddr x).key = some k)
    (hy : (decodeAddr y).key = some k) : decodeAddr x = decodeAddr y := by
  rcases decodeAddr_cases x with ⟨hr, hd⟩ | ⟨hr, hd⟩ | ⟨hr, hd⟩ | ⟨hr, hd⟩ | ⟨hr, hd⟩ <;>
  rcases decodeAddr_cases y with ⟨hr', hd'⟩ | ⟨hr', hd'⟩ | ⟨hr', hd'⟩ | ⟨hr', hd'⟩ | ⟨hr', hd'⟩ <;>
    simp only [hd, hd', Loc.key, romBase, wramBase, hramBase, Option.some.injEq, Loc.rom.injEq, Loc.wram.injEq,
      Loc.hram.injEq, reduceCtorEq] at hx hy ⊢ <;> omega

/-! ### Read and Write -/

/-- `Read` of a mapped address. -/
theorem State.read_of_key {s : State} {addr : Word} {k : Nat} (h : (decodeAddr addr).key = some k) :
    s.read addr = Memory.load s.mem k := by
  unfold State.read; rw [h]

/-- `Read` of an unmapped address (R58). -/
theorem State.read_unmapped {s : State} {addr : Word} (h : decodeAddr addr = .unmapped) :
    s.read addr = unmappedByte := by
  unfold State.read; rw [h]; rfl

/-- `Write` to an unmapped address (R58). -/
theorem State.write_unmapped {s : State} {addr : Word} {v : Byte} (h : decodeAddr addr = .unmapped) :
    s.write addr v = s := by
  unfold State.write; rw [h]; rfl

/-- `Write` to a mapped address changes the memory alone. -/
theorem State.write_of_key {s : State} {addr : Word} {v : Byte} {k : Nat} (h : (decodeAddr addr).key = some k) :
    s.write addr v = { s with mem := Memory.store s.mem k v } := by
  unfold State.write; rw [h]

/-- `Write` keeps the canonical form of the memory. -/
theorem State.write_wf {s : State} (addr : Word) (v : Byte) (h : Memory.wf s.mem = true) :
    Memory.wf (s.write addr v).mem = true := by
  cases hk : (decodeAddr addr).key with
  | none => rwa [State.write_unmapped (Loc.key_eq_none.mp hk)]
  | some k =>
    rw [State.write_of_key hk]
    exact Memory.wf_store (isStorageKey_of_key hk) h

/-- Read after write, through any alias (R54, R61, R72). -/
theorem State.read_write {s : State} (h : Memory.wf s.mem = true) (x y : Word) (v : Byte) :
    (s.write x v).read y = if decodeAddr x = decodeAddr y ∧ decodeAddr x ≠ .unmapped then v else s.read y := by
  cases hx : (decodeAddr x).key with
  | none =>
    have hu := Loc.key_eq_none.mp hx
    rw [State.write_unmapped hu, if_neg (fun hc => hc.2 hu)]
  | some k =>
    have hm : decodeAddr x ≠ .unmapped := fun hu => by rw [hu] at hx; cases hx
    rw [State.write_of_key hx]
    cases hy : (decodeAddr y).key with
    | none =>
      have hu := Loc.key_eq_none.mp hy
      rw [State.read_unmapped hu, State.read_unmapped hu, if_neg (fun hc => hm (hc.1.trans hu))]
    | some j =>
      rw [State.read_of_key hy, State.read_of_key hy]
      show Memory.load (Memory.store s.mem k v) j = _
      rw [Memory.load_store h]
      by_cases hkj : k = j
      · subst hkj; rw [if_pos rfl, if_pos ⟨decodeAddr_eq_of_key hx hy, hm⟩]
      · rw [if_neg hkj, if_neg (fun hc => hkj (Option.some.inj (by rw [← hx, ← hy, hc.1])))]

/-! ### LoadProgram -/

/-- A list no longer than ROM covers a block of ROM bytes. -/
theorem block_load {n : Nat} (h : n ≤ romSize) : BlockOfStorage romBase n := fun i h1 h2 =>
  block_rom i h1 (by omega)

theorem State.loadRom_wf {s : State} {bytes : List Byte} (hl : bytes.length ≤ romSize) (h : Memory.wf s.mem = true) :
    Memory.wf (s.loadRom bytes).mem = true :=
  Memory.wf_storeBytes bytes (block_load hl) h

theorem State.scrambleRom_wf (s : State) : Memory.wf s.scrambleRom.mem = true := by
  unfold State.scrambleRom
  exact Memory.wf_ofFn _

/-- Every `LoadProgram` keeps the canonical form. -/
theorem State.loadProgram_wf {s : State} (bytes : List Byte) (h : Memory.wf s.mem = true) :
    Memory.wf (s.loadProgram bytes).2.mem = true := by
  unfold State.loadProgram
  split
  · rename_i hl; exact State.loadRom_wf hl h
  · exact s.scrambleRom_wf

/-- `LoadProgram` changes no F. -/
theorem State.loadProgram_f {s : State} (bytes : List Byte) : (s.loadProgram bytes).2.f = s.f := by
  unfold State.loadProgram; split <;> rfl

/-- `LoadProgram` changes no run state. -/
theorem State.loadProgram_run {s : State} (bytes : List Byte) : (s.loadProgram bytes).2.run = s.run := by
  unfold State.loadProgram; split <;> rfl

end Sys2Proof.Machine
end

