-- ==== Sys2Proof/Laws/Decode.lean ====
section
/-! SUPPORT. The laws of the byte helpers and of the dispatch table. -/

namespace Sys2Proof

/-! ### High and low byte -/

@[simp] theorem hiByte_joinBytes (hi lo : Byte) : hiByte (joinBytes hi lo) = hi := by
  apply BitVec.eq_of_getLsbD_eq
  intro i hlt
  simp only [hiByte, joinBytes, BitVec.getLsbD_extractLsb', BitVec.getLsbD_append]
  simp [hlt]

@[simp] theorem loByte_joinBytes (hi lo : Byte) : loByte (joinBytes hi lo) = lo := by
  apply BitVec.eq_of_getLsbD_eq
  intro i hlt
  simp only [loByte, joinBytes, BitVec.getLsbD_extractLsb', BitVec.getLsbD_append]
  simp [hlt]

@[simp] theorem joinBytes_hiByte_loByte (v : Word) : joinBytes (hiByte v) (loByte v) = v := by
  apply BitVec.eq_of_getLsbD_eq
  intro i hlt
  simp only [hiByte, loByte, joinBytes, BitVec.getLsbD_extractLsb', BitVec.getLsbD_append]
  by_cases h : i < 8
  · simp [h]
  · have h8 : 8 + (i - 8) = i := by omega
    simp [h, h8]
    omega

/-- `{hi, lo}` is 256 times the high byte plus the low byte (R11, R93). -/
theorem joinBytes_toNat (hi lo : Byte) : (joinBytes hi lo).toNat = 256 * hi.toNat + lo.toNat := by
  have h := lo.isLt
  rw [joinBytes, BitVec.toNat_append, Nat.shiftLeft_eq, Nat.mul_comm,
    ← Nat.two_pow_add_eq_or_of_lt h]

/-! ### The dispatch table -/

/-- The table, said once: one of the eight rows of R95, or the unknown descriptor on a byte R95 does not list. -/
theorem dispatchTable_cases (op : Byte) :
    (op = 0x00#8 ∧ dispatchTable op = ⟨"NOP", 1, 4, .op .nop⟩) ∨
    (op = 0x06#8 ∧ dispatchTable op = ⟨"LD B,n", 2, 8, .opImm8 .ldBn⟩) ∨
    (op = 0x0E#8 ∧ dispatchTable op = ⟨"LD C,n", 2, 8, .opImm8 .ldCn⟩) ∨
    (op = 0x3E#8 ∧ dispatchTable op = ⟨"LD A,n", 2, 8, .opImm8 .ldAn⟩) ∨
    (op = 0x78#8 ∧ dispatchTable op = ⟨"LD A,B", 1, 4, .op .ldAB⟩) ∨
    (op = 0x79#8 ∧ dispatchTable op = ⟨"LD A,C", 1, 4, .op .ldAC⟩) ∨
    (op = 0x80#8 ∧ dispatchTable op = ⟨"ADD A,B", 1, 4, .op .addAB⟩) ∨
    (op = 0xC3#8 ∧ dispatchTable op = ⟨"JP nn", 3, 16, .opImm16 .jpNn⟩) ∨
    ((Instr.unknown op).wellFormed = true ∧ dispatchTable op = unknownDescriptor op) := by
  by_cases h0 : op = 0x00#8
  · subst h0; exact .inl ⟨rfl, rfl⟩
  by_cases h1 : op = 0x06#8
  · subst h1; exact .inr (.inl ⟨rfl, rfl⟩)
  by_cases h2 : op = 0x0E#8
  · subst h2; exact .inr (.inr (.inl ⟨rfl, rfl⟩))
  by_cases h3 : op = 0x3E#8
  · subst h3; exact .inr (.inr (.inr (.inl ⟨rfl, rfl⟩)))
  by_cases h4 : op = 0x78#8
  · subst h4; exact .inr (.inr (.inr (.inr (.inl ⟨rfl, rfl⟩))))
  by_cases h5 : op = 0x79#8
  · subst h5; exact .inr (.inr (.inr (.inr (.inr (.inl ⟨rfl, rfl⟩)))))
  by_cases h6 : op = 0x80#8
  · subst h6; exact .inr (.inr (.inr (.inr (.inr (.inr (.inl ⟨rfl, rfl⟩))))))
  by_cases h7 : op = 0xC3#8
  · subst h7; exact .inr (.inr (.inr (.inr (.inr (.inr (.inr (.inl ⟨rfl, rfl⟩)))))))
  · refine .inr (.inr (.inr (.inr (.inr (.inr (.inr (.inr ⟨?_, ?_⟩)))))))
    · simp [Instr.wellFormed, implementedOpcodes, h0, h1, h2, h3, h4, h5, h6, h7]
    · unfold dispatchTable
      split <;> first | contradiction | rfl

/-- On a byte that R95 does not list, the table holds the unknown descriptor (R96). -/
theorem dispatchTable_unknown {op : Byte} (h : (Instr.unknown op).wellFormed = true) :
    dispatchTable op = unknownDescriptor op := by
  rcases dispatchTable_cases op with ⟨rfl, -⟩ | ⟨rfl, -⟩ | ⟨rfl, -⟩ | ⟨rfl, -⟩ | ⟨rfl, -⟩ | ⟨rfl, -⟩ | ⟨rfl, -⟩ |
    ⟨rfl, -⟩ | ⟨-, hd⟩
  · exact absurd h (by decide)
  · exact absurd h (by decide)
  · exact absurd h (by decide)
  · exact absurd h (by decide)
  · exact absurd h (by decide)
  · exact absurd h (by decide)
  · exact absurd h (by decide)
  · exact absurd h (by decide)
  · exact hd

/-- A descriptor's length is 1 plus the operand bytes of its format (R37). -/
theorem dispatchTable_length (op : Byte) :
    (dispatchTable op).length = 1 + (dispatchTable op).form.operandBytes := by
  rcases dispatchTable_cases op with ⟨-, hd⟩ | ⟨-, hd⟩ | ⟨-, hd⟩ | ⟨-, hd⟩ | ⟨-, hd⟩ | ⟨-, hd⟩ | ⟨-, hd⟩ |
    ⟨-, hd⟩ | ⟨-, hd⟩ <;> rw [hd] <;> rfl

/-- The three costs of R117. -/
theorem dispatchTable_cycles (op : Byte) :
    (dispatchTable op).cycles = 4 ∨ (dispatchTable op).cycles = 8 ∨ (dispatchTable op).cycles = 16 := by
  rcases dispatchTable_cases op with ⟨-, hd⟩ | ⟨-, hd⟩ | ⟨-, hd⟩ | ⟨-, hd⟩ | ⟨-, hd⟩ | ⟨-, hd⟩ | ⟨-, hd⟩ |
    ⟨-, hd⟩ | ⟨-, hd⟩ <;> simp [hd, unknownDescriptor]

end Sys2Proof
end

