-- ==== Sys2Proof/Laws/Exec.lean ====
section
/-! SUPPORT. What each shared operation of a Step does, said once: the fetches, the end of a Step, the meanings. -/

namespace Sys2Proof.Machine

open Sys2Proof.Config

/-! ### Fetch -/

/-- `Fetch16` (R112): two reads, PC advanced by two, nothing else. -/
theorem fetch16_eq (s : State) : fetch16 s = (joinBytes (s.read (s.pc + 1#16)) (s.read s.pc),
    { s with pc := s.pc + 2#16, out := { s.out with reads := s.out.reads ++ [s.pc, s.pc + 1#16] } }) := by
  have h2 : s.pc + 1#16 + 1#16 = s.pc + 2#16 := by rw [BitVec.add_assoc]; rfl
  simp only [fetch16, fetch8, List.append_assoc, List.cons_append, List.nil_append, h2]
  rfl

/-- The state after the fetch of a whole instruction: PC past it, its addresses recorded, nothing else. -/
theorem fetchInstr_snd (s : State) : (fetchInstr s).2 =
    { s with pc := s.pc + BitVec.ofNat 16 (dispatchTable (s.read s.pc)).length,
             out := { s.out with
               reads := s.out.reads ++ fetchAddresses s.pc (dispatchTable (s.read s.pc)).length } } := by
  have h2 : s.pc + 1#16 + 1#16 = s.pc + 2#16 := by rw [BitVec.add_assoc]; rfl
  have h3 : s.pc + 1#16 + 2#16 = s.pc + 3#16 := by rw [BitVec.add_assoc]; rfl
  unfold fetchInstr
  simp only [fetch8_fst]
  rcases dispatchTable_cases (s.read s.pc) with ⟨-, hd⟩ | ⟨-, hd⟩ | ⟨-, hd⟩ | ⟨-, hd⟩ | ⟨-, hd⟩ | ⟨-, hd⟩ | ⟨-, hd⟩ |
    ⟨-, hd⟩ | ⟨-, hd⟩ <;>
    simp [hd, unknownDescriptor, fetchOperand, fetch16_eq, fetch8, fetchAddresses, h2, h3]

/-- The instruction that is fetched is the one the decoder reads from the bytes at PC. -/
theorem fetchInstr_fst (s : State) : ∃ rest, decode s.window = .ok ((fetchInstr s).1, rest) := by
  have h2 : s.pc + 1#16 + 1#16 = s.pc + 2#16 := by rw [BitVec.add_assoc]; rfl
  unfold fetchInstr State.window decode
  simp only [fetch8_fst]
  rcases dispatchTable_cases (s.read s.pc) with ⟨-, hd⟩ | ⟨-, hd⟩ | ⟨-, hd⟩ | ⟨-, hd⟩ | ⟨-, hd⟩ | ⟨-, hd⟩ | ⟨-, hd⟩ |
    ⟨-, hd⟩ | ⟨-, hd⟩ <;>
    simp [hd, unknownDescriptor, fetchOperand, fetch16_eq, h2]

/-! ### The end of a Step, and the Halted Step -/

/-- `retire` (R116, R117): it always goes on; the counter grows, the cost is given out, nothing else. -/
theorem retire_eq (n : Nat) (s : State) : retire n s =
    .next { s with totalCycles := s.totalCycles + n, out := { s.out with cost := some n } } := rfl

/-- The Halted Step (R110). -/
theorem haltedStep_eq (s : State) :
    haltedStep s = .next { s with out := { StepOutput.empty with cost := some 4 } } := rfl

/-! ### The meanings -/

/-- The state a meaning answers, by cases on the instruction; `exec_eq` says that it is. -/
def afterExec (i : Instr) (s : State) : State :=
  match i with
  | .nop => (s.accrue 4).returnCost 4
  | .ldBn n => ((s.setReg .B n).accrue 8).returnCost 8
  | .ldCn n => ((s.setReg .C n).accrue 8).returnCost 8
  | .ldAn n => ((s.setReg .A n).accrue 8).returnCost 8
  | .ldAB => ((s.setReg .A s.b).accrue 4).returnCost 4
  | .ldAC => ((s.setReg .A s.c).accrue 4).returnCost 4
  | .addAB =>
    (((s.setReg .A (add8 s.a s.b).r).setFlags (add8 s.a s.b).z (add8 s.a s.b).n (add8 s.a s.b).h
      (add8 s.a s.b).c).accrue 4).returnCost 4
  | .jpNn nn => ((s.setPc nn).accrue 16).returnCost 16
  | .unknown op => ((s.report op (s.pc - 1#16)).accrue 4).returnCost 4

/-- Every meaning goes on, and this is the state it answers. -/
theorem exec_eq (i : Instr) (s : State) : exec i s = .next (afterExec i s) := by
  cases i <;> rfl

/-- A Running Step (R113): fetch, then the meaning of the fetched instruction. -/
theorem step_running {s : State} (h : s.run = .running) :
    step s = exec (fetchInstr s.beginStep).1 (fetchInstr s.beginStep).2 := by
  unfold step; rw [h]

/-- A Halted Step (R110). -/
theorem step_halted {s : State} (h : s.run = .halted) : step s = haltedStep s := by
  unfold step; rw [h]

/-- `F & 0xF0` has zero low bits (R24). -/
theorem masked_low (v : Byte) : (v &&& 0xF0#8) &&& 0x0F#8 = 0#8 := by
  rw [BitVec.and_assoc]
  exact BitVec.and_zero

end Sys2Proof.Machine
end

