-- ==== Sys2Proof/Laws/HostOps.lean ====
section
/-! SUPPORT. What the register writes of the host leave alone, said once for `setReg`, from which every other setter
is made. -/

namespace Sys2Proof.Machine

/-- A state that differs from another only in 8-bit registers has the frame of a setter. -/
theorem OnlySets.trans {rs qs : List Reg8} {s t u : State} (h : OnlySets rs s t) (k : OnlySets qs t u) :
    OnlySets (rs ++ qs) s u where
  regs r hr := by
    rw [List.mem_append, not_or] at hr
    exact (k.regs r hr.2).trans (h.regs r hr.1)
  flags hf fl := by
    rw [List.mem_append, not_or] at hf
    exact (k.flags hf.2 fl).trans (h.flags hf.1 fl)
  sp := k.sp.trans h.sp
  pc := k.pc.trans h.pc
  bytes addr := (k.bytes addr).trans (h.bytes addr)
  mem := k.mem.trans h.mem
  run := k.run.trans h.run
  totalCycles := k.totalCycles.trans h.totalCycles
  policy := k.policy.trans h.policy
  out := k.out.trans h.out
  failedLoads := k.failedLoads.trans h.failedLoads

/-- A register write changes its register alone. -/
theorem State.setReg_onlySets (s : State) (r : Reg8) (v : Byte) : OnlySets [r] s (s.setReg r v) := by
  have hregs : ∀ q, q ∉ [r] → (s.setReg r v).getReg q = s.getReg q := by
    intro q hq
    rw [State.getReg_setReg, if_neg (by simpa using hq)]
  exact
    { regs := hregs
      flags := fun hf => State.flag_eq_of_f (hregs .F hf)
      sp := by simp
      pc := by simp
      bytes := State.read_eq_of_mem (by simp)
      mem := by simp
      run := by simp
      totalCycles := by simp
      policy := by simp
      out := by simp
      failedLoads := by simp }

end Sys2Proof.Machine
end

