-- ==== Sys2Proof/Laws/PerInstr.lean ====
section
/-! SUPPORT. What holds of each instruction as syntax, one lemma per constructor: its encoding has the length its
descriptor states (10_state.md R37, 30_encoding.md R90), and its opcode leads the dispatch table to the format that
its operand bytes fill. -/

namespace Sys2Proof.Laws.EncodedLength

/-- A well-formed instruction is encoded in as many bytes as its descriptor says, 1 to 3 (R37, R90). -/
def Statement (i : Instr) : Prop :=
  i.wellFormed = true →
    (encode i).length = (dispatchTable i.opcode).length ∧ 1 ≤ (encode i).length ∧ (encode i).length ≤ 3

theorem nop : Statement .nop := fun _ => ⟨rfl, by decide, by decide⟩
theorem ldBn (n : Byte) : Statement (.ldBn n) := fun _ => ⟨rfl, by simp [encode, Instr.operands], by simp [encode, Instr.operands]⟩
theorem ldCn (n : Byte) : Statement (.ldCn n) := fun _ => ⟨rfl, by simp [encode, Instr.operands], by simp [encode, Instr.operands]⟩
theorem ldAn (n : Byte) : Statement (.ldAn n) := fun _ => ⟨rfl, by simp [encode, Instr.operands], by simp [encode, Instr.operands]⟩
theorem ldAB : Statement .ldAB := fun _ => ⟨rfl, by decide, by decide⟩
theorem ldAC : Statement .ldAC := fun _ => ⟨rfl, by decide, by decide⟩
theorem addAB : Statement .addAB := fun _ => ⟨rfl, by decide, by decide⟩
theorem jpNn (nn : Word) : Statement (.jpNn nn) := fun _ => ⟨rfl, by simp [encode, Instr.operands], by simp [encode, Instr.operands]⟩
theorem unknown (op : Byte) : Statement (.unknown op) := fun h => by
  rw [show (Instr.unknown op).opcode = op from rfl, dispatchTable_unknown h]
  exact ⟨rfl, by simp [encode, Instr.operands], by simp [encode, Instr.operands]⟩

end Sys2Proof.Laws.EncodedLength
end

