-- ==== Sys2Proof/Tests/Slice0.lean ====
section
/-! SUPPORT. The model's own tests: well-formedness, words written out from the spec's encodings, single Steps with
the results of spec/95_test_vectors.md, and for every obligation with hypotheses a state and operands that meet
them. -/

namespace Sys2Proof.Tests

open Sys2Proof.Machine Sys2Proof.Config

/-! ### Well-formedness -/

/-- The one check: an `unknown` term that carries an assigned opcode is refused, for each of the eight (R96). -/
theorem test_wellFormed_refuses_assigned_opcodes :
    [0x00#8, 0x06#8, 0x0E#8, 0x3E#8, 0x78#8, 0x79#8, 0x80#8, 0xC3#8].all
      (fun op => !(Instr.unknown op).wellFormed) = true := by decide

/-- The ends of the seven ranges of R96 are accepted. -/
theorem test_wellFormed_accepts_range_ends :
    [0x01#8, 0x05#8, 0x07#8, 0x0D#8, 0x0F#8, 0x3D#8, 0x3F#8, 0x77#8, 0x7A#8, 0x7F#8, 0x81#8, 0xC2#8, 0xC4#8,
      0xFF#8].all (fun op => (Instr.unknown op).wellFormed) = true := by decide

/-! ### Decoding: words written out bit by bit from R95 and R96 -/

theorem test_decode_nop : decodeTableWord 8 0b00000000 = some .nop := by decide
theorem test_decode_ldBn : decodeTableWord 16 0b10100101_00000110 = some (.ldBn 0xA5#8) := by decide
theorem test_decode_ldCn : decodeTableWord 16 0b01011010_00001110 = some (.ldCn 0x5A#8) := by decide
theorem test_decode_ldAn : decodeTableWord 16 0b11000001_00111110 = some (.ldAn 0xC1#8) := by decide
theorem test_decode_ldAB : decodeTableWord 8 0b01111000 = some .ldAB := by decide
theorem test_decode_ldAC : decodeTableWord 8 0b01111001 = some .ldAC := by decide
theorem test_decode_addAB : decodeTableWord 8 0b10000000 = some .addAB := by decide
/-- Little-endian: the low operand byte stands in bits 15:8 (R93). -/
theorem test_decode_jpNn : decodeTableWord 24 0b00000001_01010000_11000011 = some (.jpNn 0x0150#16) := by decide
theorem test_decode_unknown : decodeTableWord 8 0b11001011 = some (.unknown 0xCB#8) := by decide
/-- Bits from `nbits` on are zero. -/
theorem test_decode_ignores_bits_above : decodeTableWord 8 0x123E = some (.ldAn 0x00#8) := by decide
/-- A list can only be too short. -/
theorem test_decode_refuses_short_lists :
    decode [] = .error .missingOpcode ∧ decode [0x3E#8] = .error .missingOperand ∧
      decode [0xC3#8, 0x50#8] = .error .missingOperand := ⟨rfl, rfl, rfl⟩
theorem test_encode_jpNn : encode (.jpNn 0x0150#16) = [0xC3#8, 0x50#8, 0x01#8] := by decide

/-! ### Single Steps -/

/-- The reset machine with bytes at `addr`. -/
def withBytes (addr : Word) (bytes : List Byte) : State := State.reset.writeBytes addr bytes

/-- The machine about to run the bytes at `addr`. -/
def at_ (addr : Word) (bytes : List Byte) : State := (withBytes addr bytes).setPc addr

/-- One part of the next state. -/
def after {α : Type} (o : Host.Outcome State Fault Refusal) (part : State → α) : Option α :=
  match o with
  | .next s => some (part s)
  | .fault _ => none
  | .refused _ => none

/-- Vector S1. -/
theorem test_step_nop :
    after (step (at_ 0x0000#16 [0x00#8])) (fun t => (t.pc, t.out.cost, t.totalCycles)) =
      some (0x0001#16, some 4, 4) := by decide
/-- Vector S7: an unknown opcode under `NopReport`. -/
theorem test_step_unknown_reports :
    after (step { at_ 0x0040#16 [0xCB#8] with policy := .nopReport }) (fun t => (t.pc, t.out.event, t.out.cost)) =
      some (0x0041#16, some ⟨0xCB#8, 0x0040#16⟩, some 4) := by decide
/-- Vector S2: at 0xFFFF the unmapped 0xFF is fetched, and PC wraps. -/
theorem test_step_unknown_wraps :
    after (step (State.reset.setPc 0xFFFF#16)) (fun t => (t.pc, t.out.reads, t.out.cost)) =
      some (0x0000#16, [0xFFFF#16], some 4) := by decide
/-- Vector LV2: zero leaves Z alone. -/
theorem test_step_ldAn :
    after (step ((at_ 0x0000#16 [0x3E#8, 0x00#8]).setReg .F 0xB0#8)) (fun t => (t.a, t.f, t.pc, t.out.cost)) =
      some (0x00#8, 0xB0#8, 0x0002#16, some 8) := by decide
/-- Vector S3: the operand of an `LD A,n` at 0xFFFE is the unmapped 0xFF, and PC wraps. -/
theorem test_step_ldAn_wraps :
    after (step (at_ 0xFFFE#16 [0x3E#8])) (fun t => (t.a, t.pc, t.out.cost)) =
      some (0xFF#8, 0x0000#16, some 8) := by decide +kernel
/-- Vector LV3. -/
theorem test_step_ldBn :
    after (step (at_ 0x0000#16 [0x06#8, 0xFF#8])) (fun t => (t.b, t.getPair .BC, t.pc, t.out.cost)) =
      some (0xFF#8, 0xFF00#16, 0x0002#16, some 8) := by decide
/-- Vector LV4: register C, not the carry flag. -/
theorem test_step_ldCn :
    after (step (at_ 0x0000#16 [0x0E#8, 0x80#8])) (fun t => (t.c, t.flag .C, t.pc, t.out.cost)) =
      some (0x80#8, false, 0x0002#16, some 8) := by decide
/-- Vector LV5. -/
theorem test_step_ldAB :
    after (step (((at_ 0x0000#16 [0x78#8]).setReg .A 0x11#8).setReg .B 0x22#8)) (fun t => (t.a, t.b, t.out.cost)) =
      some (0x22#8, 0x22#8, some 4) := by decide
/-- Vector LV6. -/
theorem test_step_ldAC :
    after (step ((((at_ 0x0000#16 [0x79#8]).setReg .A 0x11#8).setReg .C 0x33#8).setReg .F 0x5F#8))
      (fun t => (t.a, t.c, t.f, t.out.cost)) = some (0x33#8, 0x33#8, 0x50#8, some 4) := by decide
/-- Vector AD6 (scenario B): both carries, zero result. -/
theorem test_step_addAB :
    after (step (((at_ 0x0000#16 [0x80#8]).setReg .A 0xFF#8).setReg .B 0x01#8)) (fun t => (t.a, t.b, t.f, t.out.cost)) =
      some (0x00#8, 0x01#8, 0xB0#8, some 4) := by decide
/-- Vectors AD3, AD5, AD8, AD10, AD11: half-carry alone, carry alone, the largest sum, signed overflow, no carry. -/
theorem test_add8_rows :
    add8 0x0F#8 0x01#8 = ⟨0x10#8, false, false, true, false⟩ ∧
    add8 0xF0#8 0x10#8 = ⟨0x00#8, true, false, false, true⟩ ∧
    add8 0xFF#8 0xFF#8 = ⟨0xFE#8, false, false, true, true⟩ ∧
    add8 0x7F#8 0x01#8 = ⟨0x80#8, false, false, true, false⟩ ∧
    add8 0xE1#8 0x1E#8 = ⟨0xFF#8, false, false, false, false⟩ := by decide
/-- Vector S4: the order of the reads. -/
theorem test_step_jpNn :
    after (step (at_ 0x0100#16 [0xC3#8, 0x34#8, 0x12#8])) (fun t => (t.pc, t.out.reads, t.out.cost)) =
      some (0x1234#16, [0x0100#16, 0x0101#16, 0x0102#16], some 16) := by decide
/-- Vector JV4: the operand of a `JP nn` at 0xFFFE is read from 0xFFFF and 0x0000. -/
theorem test_step_jpNn_wraps :
    after (step ((at_ 0xFFFE#16 [0xC3#8]).write 0x0000#16 0x12#8)) (fun t => t.pc) = some 0x12FF#16 := by decide +kernel
/-- Vector S5: a Halted core. -/
theorem test_step_halted :
    after (step { at_ 0x0000#16 [0x3E#8] with run := .halted })
      (fun t => (t.pc, t.a, t.totalCycles, t.out.cost, t.out.reads)) =
      some (0x0000#16, 0x00#8, 0, some 4, []) := by decide

/-! ### The Address Space and the host -/

/-- Vectors M1, M4, M5, M7. -/
theorem test_write_read_aliases :
    (State.reset.write 0x7FFF#16 0x5A#8).read 0x7FFF#16 = 0x5A#8 ∧
    (State.reset.write 0xC000#16 0x11#8).read 0xE000#16 = 0x11#8 ∧
    (State.reset.write 0xE123#16 0x22#8).read 0xC123#16 = 0x22#8 ∧
    (State.reset.write 0xFDFF#16 0x44#8).read 0xDDFF#16 = 0x44#8 := by decide
/-- Vectors M2, M3, M11, M12, M14. -/
theorem test_unmapped_addresses :
    State.reset.read 0x8000#16 = 0xFF#8 ∧ (State.reset.write 0xBFFF#16 0x12#8) = State.reset ∧
    (State.reset.write 0xDE00#16 0x77#8).read 0xFE00#16 = 0xFF#8 ∧ State.reset.read 0xFF7F#16 = 0xFF#8 ∧
    (State.reset.write 0xFFFF#16 0x99#8).read 0xFFFF#16 = 0xFF#8 := by decide
/-- Writing what an unlisted byte reads as removes the entry, so that equal memories are equal lists. -/
theorem test_write_keeps_canonical_form :
    ((State.reset.write 0xE001#16 0x07#8).write 0x0002#16 0x09#8).mem = [(0x0002, 0x09#8), (0xC001, 0x07#8)] ∧
    (((State.reset.write 0xE001#16 0x07#8).write 0xC001#16 0x00#8).mem) = [] := by decide
/-- Vector LP5. -/
theorem test_loadProgram_spares_the_rest :
    (hostOp (.loadProgram [0x00#8, 0x3E#8]) (State.reset.write 0x0002#16 0xAA#8)).2.mem =
      [(0x0001, 0x3E#8), (0x0002, 0xAA#8)] := by decide
/-- Vectors RP4, RP6, RP8, RP9. -/
theorem test_flag_register_writes :
    (State.reset.setPair .AF 0x12FF#16).getPair .AF = 0x12F0#16 ∧ (State.reset.setReg .F 0xAB#8).f = 0xA0#8 ∧
    (State.reset.setFlag .N true).f = 0x40#8 ∧ ((State.reset.setReg .F 0xF0#8).setFlag .Z false).f = 0x70#8 := by
  decide
/-- SP and PC are two registers to the host (R39). -/
theorem test_host_sets_sp_not_pc :
    (hostOp (.setSp 0x1234#16) State.reset).2.sp = 0x1234#16 ∧ (hostOp (.setSp 0x1234#16) State.reset).2.pc = 0x0000#16 ∧
    (hostOp .readSp (State.reset.setPc 0x0150#16)).1 = .word 0xFFFE#16 := by decide
/-- The next Step runs exactly the placed instruction, from reset. -/
theorem test_withFetchWord_jpNn :
    after (step (State.reset.withFetchWord 24 0x0150C3)) (fun t => (t.pc, t.out.cost)) = some (0x0150#16, some 16) := by
  decide

/-! ### Witnesses: for every obligation with hypotheses, values that meet them; for clauses over ranges, the ends -/

theorem witness_ConstructionHoldsAnyInitialMemory :
    decodeAddr 0x0000#16 = .rom 0 ∧ decodeAddr 0x7FFF#16 = .rom 0x7FFF ∧ decodeAddr 0xC000#16 = .wram 0 ∧
    decodeAddr 0xDFFF#16 = .wram 0x1FFF ∧ decodeAddr 0xE000#16 = .wram 0 ∧ decodeAddr 0xFF80#16 = .hram 0 ∧
    decodeAddr 0xFFFE#16 = .hram 0x7E := by decide
theorem witness_AddressDecodeFollowsRegionMap :
    [0x0000#16, 0x7FFF#16].all (fun a => decide (a.toNat ≤ 0x7FFF)) = true ∧
    [0xC000#16, 0xDFFF#16].all (fun a => decide (0xC000 ≤ a.toNat ∧ a.toNat ≤ 0xDFFF)) = true ∧
    [0xE000#16, 0xFDFF#16].all (fun a => decide (0xE000 ≤ a.toNat ∧ a.toNat ≤ 0xFDFF)) = true ∧
    [0xFF80#16, 0xFFFE#16].all (fun a => decide (0xFF80 ≤ a.toNat ∧ a.toNat ≤ 0xFFFE)) = true ∧
    [0x8000#16, 0xBFFF#16, 0xFE00#16, 0xFF7F#16, 0xFFFF#16].all (fun a =>
      decide (¬ a.toNat ≤ 0x7FFF ∧ ¬ (0xC000 ≤ a.toNat ∧ a.toNat ≤ 0xFDFF) ∧
        ¬ (0xFF80 ≤ a.toNat ∧ a.toNat ≤ 0xFFFE))) = true := by decide
theorem witness_UnmappedReadsFFAndDiscardsWrites :
    [0x8000#16, 0xBFFF#16, 0xFE00#16, 0xFF7F#16, 0xFFFF#16].all (fun a => decide (decodeAddr a = .unmapped)) = true := by
  decide
theorem witness_WriteIsReadBackThroughEveryAlias :
    Memory.wf (withBytes 0xC000#16 [0x11#8, 0x22#8]).mem = true ∧
    (decodeAddr 0xC000#16 = decodeAddr 0xE000#16 ∧ decodeAddr 0xC000#16 ≠ .unmapped) := by decide
theorem witness_MirrorSelectsWorkingRam :
    [0xE000#16, 0xFDFF#16].all (fun a => decide (0xE000 ≤ a.toNat ∧ a.toNat ≤ 0xFDFF)) = true ∧
    [0xDE00#16, 0xDFFF#16].all (fun a =>
      decide (0xDE00 ≤ a.toNat ∧ a.toNat ≤ 0xDFFF ∧ decodeAddr a = decodeAddr a)) = true := by decide
theorem witness_AliasesAreExactlyTheMirrorPairs :
    (0xC000#16 ≠ 0xE000#16 ∧ decodeAddr 0xC000#16 = decodeAddr 0xE000#16) ∧
    (0xFDFF#16 ≠ 0xDDFF#16 ∧ decodeAddr 0xFDFF#16 = decodeAddr 0xDDFF#16) ∧
    (0xDE00#16 ≠ 0xFE00#16 ∧ decodeAddr 0xDE00#16 ≠ decodeAddr 0xFE00#16) := by decide
theorem witness_CanonicalMemoryIsUnique :
    Memory.wf [(0x0000, 0x01#8), (0xFFFE, 0x02#8)] = true ∧
    ∀ k, Memory.load [(0x0000, 0x01#8), (0xFFFE, 0x02#8)] k = Memory.load [(0x0000, 0x01#8), (0xFFFE, 0x02#8)] k :=
  ⟨by decide, fun _ => rfl⟩
theorem witness_LoadProgramCopiesIntoRom :
    Memory.wf State.reset.mem = true ∧ ([] : List Byte).length ≤ 32768 ∧
    (List.replicate 32768 0xC3#8).length ≤ 32768 := ⟨by decide, by decide, by rw [List.length_replicate]⟩
theorem witness_OversizedLoadFailsAndSparesRam :
    32768 < (List.replicate 32769 0xC3#8).length ∧ (0x7FFF#16 : Word).toNat ≤ 0x7FFF ∧
    0x7FFF < (0x8000#16 : Word).toNat := ⟨by rw [List.length_replicate]; decide, by decide, by decide⟩
theorem witness_PairWritesThroughAndReadsBack :
    Pair.BC ≠ .AF ∧ Pair.AF = .AF ∧ Reg8.D ∉ [Pair.BC.hi, Pair.BC.lo] := by decide
theorem witness_FLowNibbleIsAlwaysZero :
    Reachable (State.construct .postBoot (Memory.ofFn fun _ => 0xC3#8) .nopReport) ∧
    (State.reset.setReg .F 0xFF#8).getReg .F &&& 0x0F#8 = 0x00#8 ∧
    (∃ t, move .step (State.reset.setReg .F 0xFF#8) = .next t) ∧
    ∃ t, move (.host (.setReg .F 0x0F#8)) (State.reset.setReg .F 0xFF#8) = .next t :=
  ⟨⟨.postBoot, fun _ => 0xC3#8, .nopReport, [], rfl⟩, by decide, ⟨_, rfl⟩, _, rfl⟩
theorem witness_FlagWritesAreIndependent :
    (State.reset.setReg .F 0xFF#8).f &&& 0x0F#8 = 0x00#8 ∧ Flag.N ≠ .Z ∧ 6 ≠ Flag.Z.bit ∧ Reg8.A ≠ .F := by decide
theorem witness_DecodeGivesBackEncodedInstruction :
    (Instr.jpNn 0xFFFF#16).wellFormed = true ∧ (Instr.unknown 0x01#8).wellFormed = true ∧
    (Instr.unknown 0xFF#8).wellFormed = true := by decide
theorem witness_DecodedBytesAreTheEncoding :
    decode [0xC3#8, 0x50#8, 0x01#8, 0x00#8] = .ok (.jpNn 0x0150#16, [0x00#8]) ∧
    decode [0xFF#8] = .ok (.unknown 0xFF#8, []) := ⟨rfl, rfl⟩
theorem witness_StepRunsTheDecodedInstruction :
    (at_ 0xFFFD#16 [0xC3#8, 0x34#8]).run = .running ∧
    decode (at_ 0xFFFD#16 [0xC3#8, 0x34#8]).window = .ok (.jpNn 0xFF34#16, []) := by
  have hw : (at_ 0xFFFD#16 [0xC3#8, 0x34#8]).window = [0xC3#8, 0x34#8, 0xFF#8] := by decide
  exact ⟨by decide, by rw [hw]; rfl⟩
theorem witness_HaltedStepOnlyReturnsFour : ({ State.reset with run := .halted } : State).run = .halted := by decide
theorem witness_StepReturnsTheDescriptorCost :
    (at_ 0x0000#16 [0xC3#8]).run = .running ∧ (at_ 0x0000#16 [0xC3#8]).read 0x0000#16 = 0xC3#8 := by decide
theorem witness_PcAfterStepIsPastTheInstruction :
    ((at_ 0xFFFE#16 [0x3E#8]).run = .running ∧ (at_ 0xFFFE#16 [0x3E#8]).read 0xFFFE#16 ≠ 0xC3#8) ∧
    ((at_ 0xFFFE#16 [0xC3#8]).run = .running ∧ (at_ 0xFFFE#16 [0xC3#8]).read 0xFFFE#16 = 0xC3#8) := by decide
theorem witness_StepReadsItsBytesInOrder :
    (at_ 0x0000#16 [0xC3#8]).run = .running ∧
    after (step (at_ 0x0000#16 [0xC3#8])) (fun t => decide (2 < t.out.reads.length)) = some true := by decide
theorem witness_OnlyUnknownOpcodesAreReported :
    (at_ 0x0000#16 [0xCB#8]).run = .running ∧ (Instr.unknown ((at_ 0x0000#16 [0xCB#8]).read 0x0000#16)).wellFormed = true ∧
    ({ State.reset with policy := .nopReport } : State).policy = .nopReport := by decide
theorem witness_UnmappedPcRunsUnknownOpcode :
    [0x8000#16, 0xBFFF#16, 0xFE00#16, 0xFF7F#16, 0xFFFF#16].all (fun a =>
      decide ((State.reset.setPc a).run = .running ∧ decodeAddr (State.reset.setPc a).pc = .unmapped)) = true := by
  decide
theorem witness_HostWriteIsSeenByTheNextFetch :
    [0x0000#16, 0x7FFF#16, 0xC000#16, 0xFDFF#16, 0xFF80#16, 0xFFFE#16].all (fun a =>
      decide ((State.reset.setPc a).run = .running ∧ Memory.wf (State.reset.setPc a).mem = true ∧
        decodeAddr (State.reset.setPc a).pc ≠ .unmapped)) = true := by decide

/-- A Running state whose opcode at PC is `op`: meets the hypotheses of the Step half of the instruction's statement. -/
theorem witness_NopHasNoEffect :
    (at_ 0xFFFE#16 [0x00#8]).run = .running ∧ (at_ 0xFFFE#16 [0x00#8]).read (at_ 0xFFFE#16 [0x00#8]).pc = 0x00#8 := by
  decide
theorem witness_UnknownOpcodeHasNoEffect :
    (State.reset.setPc 0xFFFF#16).run = .running ∧ (State.reset.setPc 0xFFFF#16).policy = .nop ∧
    (Instr.unknown ((State.reset.setPc 0xFFFF#16).read (State.reset.setPc 0xFFFF#16).pc)).wellFormed = true := by decide
theorem witness_LdAnLoadsTheImmediate :
    (at_ 0xFFFE#16 [0x3E#8]).run = .running ∧ (at_ 0xFFFE#16 [0x3E#8]).read (at_ 0xFFFE#16 [0x3E#8]).pc = 0x3E#8 := by
  decide
theorem witness_LdBnLoadsTheImmediate :
    (at_ 0xFFFE#16 [0x06#8]).run = .running ∧ (at_ 0xFFFE#16 [0x06#8]).read (at_ 0xFFFE#16 [0x06#8]).pc = 0x06#8 := by
  decide
theorem witness_LdCnLoadsTheImmediate :
    (at_ 0xFFFE#16 [0x0E#8]).run = .running ∧ (at_ 0xFFFE#16 [0x0E#8]).read (at_ 0xFFFE#16 [0x0E#8]).pc = 0x0E#8 := by
  decide
theorem witness_LdABCopiesBIntoA :
    (at_ 0xC000#16 [0x78#8]).run = .running ∧ (at_ 0xC000#16 [0x78#8]).read (at_ 0xC000#16 [0x78#8]).pc = 0x78#8 := by
  decide
theorem witness_LdACCopiesCIntoA :
    (at_ 0xE000#16 [0x79#8]).run = .running ∧ (at_ 0xE000#16 [0x79#8]).read (at_ 0xE000#16 [0x79#8]).pc = 0x79#8 := by
  decide
theorem witness_AddABWritesSumAndAllFlags :
    (at_ 0x7FFF#16 [0x80#8]).run = .running ∧ (at_ 0x7FFF#16 [0x80#8]).read (at_ 0x7FFF#16 [0x80#8]).pc = 0x80#8 := by
  decide
theorem witness_JpNnSetsPcToTheOperand :
    (at_ 0xFFFE#16 [0xC3#8]).run = .running ∧ (at_ 0xFFFE#16 [0xC3#8]).read (at_ 0xFFFE#16 [0xC3#8]).pc = 0xC3#8 := by
  decide

theorem witness_OnlyAddABChangesFlags :
    ∃ t, step (at_ 0x0000#16 [0x80#8]) = .next t ∧ t.f ≠ (at_ 0x0000#16 [0x80#8]).f := ⟨_, rfl, by decide⟩
theorem witness_InstructionsTouchOnlyTheirTableRegisters :
    Reg8.B ∉ writesOf .addAB ∧ Reg8.F ∉ readsOf .addAB ∧ Reg8.F ∈ writesOf .addAB ∧ Reg8.D ∉ readsOf .addAB ∧
    Reg8.D ∉ writesOf .addAB := by decide
theorem witness_StepKeepsInvariant : State.reset.Inv ∧ ∃ t, step State.reset = .next t :=
  ⟨⟨by decide, by decide⟩, _, rfl⟩
theorem witness_HostOperationsKeepInvariant : ((State.reset.setReg .F 0xFF#8).write 0xC000#16 0x01#8).Inv :=
  ⟨by decide, by decide⟩
theorem witness_NoReachableStateIsHalted :
    (∃ s, Reachable s ∧ s.totalCycles ≠ 0) ∧ State.reset.run = .running ∧ State.reset.Inv ∧
    (∃ t, move .step State.reset = .next t) ∧ ∃ t, move (.host (.write 0xC000#16 0x01#8)) State.reset = .next t :=
  ⟨⟨_, ⟨.zeroed, fun _ => 0x00#8, .nop, [.host (.setPc 0xFFFF#16), .step], rfl⟩, by decide⟩, by decide,
    ⟨by decide, by decide⟩, ⟨_, rfl⟩, _, rfl⟩
theorem witness_HostOperationsLeaveExecutionStateAlone : isHostRead (.read 0x8000#16) = true := by decide
theorem witness_HostReadsAnswerTheNamedValue :
    decodeAddr 0x0000#16 = .rom 0 ∧ decodeAddr 0x7FFF#16 = .rom 0x7FFF ∧ decodeAddr 0x8000#16 = .unmapped ∧
    decodeAddr 0xC000#16 = .wram 0 ∧ decodeAddr 0xFDFF#16 = .wram 0x1DFF ∧ decodeAddr 0xFE00#16 = .unmapped ∧
    decodeAddr 0xFF80#16 = .hram 0 ∧ decodeAddr 0xFFFE#16 = .hram 0x7E ∧ decodeAddr 0xFFFF#16 = .unmapped := by decide
theorem witness_HostSettersWriteOnlyTheirTarget :
    Flag.C ≠ .Z ∧ Reg8.E ∉ [Reg8.D] ∧ Reg8.F ∉ [Reg8.D] ∧ Reg8.H ∉ [Pair.DE.hi, Pair.DE.lo] := by decide
theorem witness_HostWriteStoresOneByte :
    Memory.wf (withBytes 0xC000#16 [0x11#8]).mem = true ∧ decodeAddr 0xFFFF#16 = .unmapped ∧
    (decodeAddr 0xC000#16 ≠ .unmapped ∧ decodeAddr 0xE000#16 = decodeAddr 0xC000#16) ∧
    decodeAddr 0xFE00#16 ≠ decodeAddr 0xDE00#16 := by decide
theorem witness_OnlyWriteAndLoadProgramChangeMemory :
    (∃ t, move (.host (.setSp 0xC000#16)) State.reset = .next t) ∧
    ∃ t, move (.host (.write 0xC000#16 0x01#8)) State.reset = .next t ∧ t.mem ≠ State.reset.mem :=
  ⟨⟨_, rfl⟩, _, rfl, by decide⟩
theorem witness_DiagnosticsNeverInfluenceExecution :
    State.reset.coreOf = ({ State.reset with totalCycles := 7, policy := .nopReport } : State).coreOf ∧ 0 < 1 := by
  decide
theorem witness_StepsAccrueBoundedCycles : State.reset.run = .running := by decide

end Sys2Proof.Tests
end

/-! Proofs of the statements about the state (10_state.md): first what an instruction, a Step, a host operation and
a run keep, then construction, the canonical memory, pairs, flags and what an instruction does not read; the
statements last. -/

namespace Sys2Proof.Machine

open Sys2Proof.Config

/-! ### The instructions -/

/-- The end of a Step (R116, R117) leaves every register alone. -/
theorem State.getReg_retired (s : State) (n : Nat) (r : Reg8) :
    ((s.accrue n).returnCost n).getReg r = s.getReg r := by
  cases r <;> rfl

/-- The end of a Step (R116, R117) is in the frame of every instruction. -/
theorem State.retired_onlyChanges (s : State) (n : Nat) : OnlyChanges [] s ((s.accrue n).returnCost n) where
  regs r _ := s.getReg_retired n r
  flags _ _ := rfl
  sp := rfl
  run := rfl
  bytes _ := rfl
  mem := rfl
  policy := rfl
  failedLoads := rfl
  reads := rfl

/-- Frames of instructions compose. -/
theorem OnlyChanges.trans {rs qs : List Reg8} {s t u : State} (h : OnlyChanges rs s t) (k : OnlyChanges qs t u) :
    OnlyChanges (rs ++ qs) s u where
  regs r hr := by
    rw [List.mem_append, not_or] at hr
    exact (k.regs r hr.2).trans (h.regs r hr.1)
  flags hf fl := by
    rw [List.mem_append, not_or] at hf
    exact (k.flags hf.2 fl).trans (h.flags hf.1 fl)
  sp := k.sp.trans h.sp
  run := k.run.trans h.run
  bytes addr := (k.bytes addr).trans (h.bytes addr)
  mem := k.mem.trans h.mem
  policy := k.policy.trans h.policy
  failedLoads := k.failedLoads.trans h.failedLoads
  reads := k.reads.trans h.reads

/-- What sets only registers changes only them. -/
theorem OnlySets.onlyChanges {rs : List Reg8} {s t : State} (h : OnlySets rs s t) : OnlyChanges rs s t :=
  { h with reads := by rw [h.out] }

/-- A jump is in the frame of every instruction. -/
theorem State.setPc_onlyChanges (s : State) (v : Word) : OnlyChanges [] s (s.setPc v) where
  regs r _ := by cases r <;> rfl
  flags _ _ := rfl
  sp := rfl
  run := rfl
  bytes _ := rfl
  mem := rfl
  policy := rfl
  failedLoads := rfl
  reads := rfl

/-- A report is in the frame of every instruction. -/
theorem State.report_onlyChanges (s : State) (op : Byte) (pc0 : Word) : OnlyChanges [] s (s.report op pc0) where
  regs r _ := by cases r <;> simp
  flags _ := State.flag_eq_of_f (by simp)
  sp := by simp
  run := by simp
  bytes := State.read_eq_of_mem (by simp)
  mem := by simp
  policy := by simp
  failedLoads := by simp
  reads := by simp

/-- Every instruction stays in its frame: it writes the registers of its row in the table of R28, and no other. -/
theorem afterExec_onlyChanges (i : Instr) (s : State) : OnlyChanges (writesOf i) s (afterExec i s) := by
  cases i with
  | nop => exact s.retired_onlyChanges 4
  | ldBn n => exact (s.setReg_onlySets .B n).onlyChanges.trans (State.retired_onlyChanges _ 8)
  | ldCn n => exact (s.setReg_onlySets .C n).onlyChanges.trans (State.retired_onlyChanges _ 8)
  | ldAn n => exact (s.setReg_onlySets .A n).onlyChanges.trans (State.retired_onlyChanges _ 8)
  | ldAB => exact (s.setReg_onlySets .A s.b).onlyChanges.trans (State.retired_onlyChanges _ 4)
  | ldAC => exact (s.setReg_onlySets .A s.c).onlyChanges.trans (State.retired_onlyChanges _ 4)
  | addAB =>
    exact ((s.setReg_onlySets .A _).trans (State.setReg_onlySets _ .F _)).onlyChanges.trans
      (State.retired_onlyChanges _ 4)
  | jpNn nn => exact (s.setPc_onlyChanges nn).trans (State.retired_onlyChanges _ 16)
  | unknown op => exact (s.report_onlyChanges op _).trans (State.retired_onlyChanges _ 4)

/-- Of all instructions only `ADD A,B` lists F among its writes (R27, R28). -/
theorem eq_addAB_of_F_mem_writesOf {i : Instr} (h : Reg8.F ∈ writesOf i) : i = .addAB := by
  cases i with
  | addAB => rfl
  | nop | ldBn | ldCn | ldAn | ldAB | ldAC | jpNn | unknown => simp [writesOf] at h

/-- Only `ADD A,B` writes F (R27). -/
theorem afterExec_f {i : Instr} (hi : i ≠ .addAB) (s : State) : (afterExec i s).f = s.f :=
  (afterExec_onlyChanges i s).regs .F fun h => hi (eq_addAB_of_F_mem_writesOf h)

/-! ### The fetch -/

/-- The opcode of the fetched instruction is the byte at PC (R111, R113). -/
theorem fetchInstr_opcode (s : State) : (fetchInstr s).1.opcode = s.read s.pc := by
  unfold fetchInstr
  simp only [fetch8_fst]
  rcases dispatchTable_cases (s.read s.pc) with ⟨ho, hd⟩ | ⟨ho, hd⟩ | ⟨ho, hd⟩ | ⟨ho, hd⟩ | ⟨ho, hd⟩ | ⟨ho, hd⟩ |
    ⟨ho, hd⟩ | ⟨ho, hd⟩ | ⟨-, hd⟩ <;> rw [hd]
  on_goal 9 => rfl
  all_goals exact ho.symm

/-- The fetch changes PC and the record of reads alone (R111, R112). -/
theorem fetchInstr_onlyMovesPc (s : State) : ∃ pc out, (fetchInstr s.beginStep).2 = { s with pc := pc, out := out } :=
  ⟨_, _, fetchInstr_snd s.beginStep⟩

/-! ### The Step -/

/-- The state a Step answers; `step_eq` says that it is. -/
def afterStep (s : State) : State :=
  match s.run with
  | .halted => { s with out := { StepOutput.empty with cost := some 4 } }
  | .running => afterExec (fetchInstr s.beginStep).1 (fetchInstr s.beginStep).2

theorem afterStep_halted {s : State} (h : s.run = .halted) :
    afterStep s = { s with out := { StepOutput.empty with cost := some 4 } } := by
  unfold afterStep; rw [h]

theorem afterStep_running {s : State} (h : s.run = .running) :
    afterStep s = afterExec (fetchInstr s.beginStep).1 (fetchInstr s.beginStep).2 := by
  unfold afterStep; rw [h]

/-- Every Step goes on, and this is the state it answers (R113, R170). -/
theorem step_eq (s : State) : step s = .next (afterStep s) := by
  cases h : s.run with
  | running => rw [step_running h, exec_eq, afterStep_running h]
  | halted => rw [step_halted h, haltedStep_eq, afterStep_halted h]

/-- What a Step answers is `afterStep`: the inversion of `step`. -/
theorem eq_afterStep {s t : State} (h : step s = .next t) : t = afterStep s := by
  rw [step_eq] at h
  exact (Host.Outcome.next.inj h).symm

/-- `n` Steps are the next-state function iterated `n` times; a run of Steps never stops (R120). -/
theorem core_run_eq (n : Nat) (s : State) : Sys2Proof.core.run n s = .next (afterStep^[n] s) := by
  induction n generalizing s with
  | zero => rfl
  | succ n ih =>
    have hstep : Sys2Proof.core.step s = .next (afterStep s) := step_eq s
    simp only [Host.Core.run, hstep]
    exact ih (afterStep s)

/-- What every Step keeps: the registers that no instruction writes, SP, the run state, the memory, and the model's
parameter and draw counter (R28, R31, R33, R69). -/
structure KeptBySteps (s t : State) : Prop where
  regs : ∀ r, r ∉ [Reg8.A, .F, .B, .C] → t.getReg r = s.getReg r
  sp : t.sp = s.sp
  run : t.run = s.run
  mem : t.mem = s.mem
  policy : t.policy = s.policy
  failedLoads : t.failedLoads = s.failedLoads

theorem KeptBySteps.refl (s : State) : KeptBySteps s s := ⟨fun _ _ => rfl, rfl, rfl, rfl, rfl, rfl⟩

theorem KeptBySteps.trans {s t u : State} (h : KeptBySteps s t) (k : KeptBySteps t u) : KeptBySteps s u where
  regs r hr := (k.regs r hr).trans (h.regs r hr)
  sp := k.sp.trans h.sp
  run := k.run.trans h.run
  mem := k.mem.trans h.mem
  policy := k.policy.trans h.policy
  failedLoads := k.failedLoads.trans h.failedLoads

/-- No instruction writes a register other than A, F, B and C (R28). -/
theorem writesOf_subset (i : Instr) : writesOf i ⊆ [Reg8.A, .F, .B, .C] := by
  cases i <;> simp [writesOf]

theorem OnlyChanges.keptBySteps {i : Instr} {s t : State} (h : OnlyChanges (writesOf i) s t) : KeptBySteps s t where
  regs r hr := h.regs r fun hw => hr (writesOf_subset i hw)
  sp := h.sp
  run := h.run
  mem := h.mem
  policy := h.policy
  failedLoads := h.failedLoads

/-- Moving PC and replacing what the Step gave out touches nothing that Steps keep. -/
theorem keptBySteps_with_pc_out (s : State) (pc : Word) (out : StepOutput) :
    KeptBySteps s { s with pc := pc, out := out } :=
  ⟨fun r _ => by cases r <;> rfl, rfl, rfl, rfl, rfl, rfl⟩

theorem afterStep_keptBySteps (s : State) : KeptBySteps s (afterStep s) := by
  cases h : s.run with
  | halted =>
    rw [afterStep_halted h]
    exact keptBySteps_with_pc_out s s.pc _
  | running =>
    rw [afterStep_running h]
    have hexec := (afterExec_onlyChanges (fetchInstr s.beginStep).1 (fetchInstr s.beginStep).2).keptBySteps
    obtain ⟨pc, out, hfetch⟩ := fetchInstr_onlyMovesPc s
    rw [hfetch] at hexec ⊢
    exact (keptBySteps_with_pc_out s pc out).trans hexec

theorem iterate_afterStep_keptBySteps (n : Nat) (s : State) : KeptBySteps s (afterStep^[n] s) := by
  induction n generalizing s with
  | zero => exact .refl s
  | succ n ih => exact (afterStep_keptBySteps s).trans (ih (afterStep s))

/-- A pair is kept where both its registers are. -/
theorem KeptBySteps.getPair {s t : State} (h : KeptBySteps s t) {p : Pair} (hhi : p.hi ∉ [Reg8.A, .F, .B, .C])
    (hlo : p.lo ∉ [Reg8.A, .F, .B, .C]) : t.getPair p = s.getPair p := by
  unfold State.getPair
  rw [h.regs _ hhi, h.regs _ hlo]

/-- A Step changes F only where it runs `ADD A,B`, whose opcode is 0x80 (R27). -/
theorem afterStep_f (s : State) (h : ¬ (s.run = .running ∧ s.read s.pc = 0x80#8)) : (afterStep s).f = s.f := by
  cases hr : s.run with
  | halted => rw [afterStep_halted hr]
  | running =>
    have hop : (fetchInstr s.beginStep).1 ≠ .addAB := fun hi =>
      h ⟨hr, by rw [← State.beginStep_read, ← State.beginStep_pc, ← fetchInstr_opcode, hi]; rfl⟩
    obtain ⟨pc, out, hfetch⟩ := fetchInstr_onlyMovesPc s
    rw [afterStep_running hr, afterExec_f hop, hfetch]

/-! ### Bits 3 to 0 of F -/

/-- Writing a register keeps the low bits of F zero: a write of F is masked, and no other touches F (R24). -/
theorem State.setReg_flagsLow {s : State} (r : Reg8) (v : Byte) (h : s.f &&& 0x0F#8 = 0#8) :
    (s.setReg r v).f &&& 0x0F#8 = 0#8 := by
  by_cases hr : r = .F
  · subst hr; exact masked_low v
  · rw [show (s.setReg r v).f = s.f from (s.setReg_onlySets r v).regs .F (by simpa using Ne.symm hr)]
    exact h

/-- Every instruction keeps the low bits of F zero: `ADD A,B` writes F through the mask, no other writes it. -/
theorem afterExec_flagsLow (i : Instr) {s : State} (h : s.f &&& 0x0F#8 = 0#8) :
    (afterExec i s).f &&& 0x0F#8 = 0#8 := by
  by_cases hi : i = .addAB
  · subst hi; exact masked_low _
  · rwa [afterExec_f hi]

theorem afterStep_flagsLow {s : State} (h : s.f &&& 0x0F#8 = 0#8) : (afterStep s).f &&& 0x0F#8 = 0#8 := by
  cases hr : s.run with
  | halted => rwa [afterStep_halted hr]
  | running =>
    obtain ⟨pc, out, hfetch⟩ := fetchInstr_onlyMovesPc s
    rw [afterStep_running hr]
    exact afterExec_flagsLow _ (by rwa [hfetch])

theorem afterStep_inv {s : State} (h : s.Inv) : (afterStep s).Inv where
  flagsLow := afterStep_flagsLow h.flagsLow
  memory := by rw [(afterStep_keptBySteps s).mem]; exact h.memory

/-! ### The host operations -/

@[simp] theorem hostOp_loadProgram_snd (bytes : List Byte) (s : State) :
    (hostOp (.loadProgram bytes) s).2 = (s.loadProgram bytes).2 := by
  simp only [hostOp]
  split <;> rename_i heq <;> rw [heq]

/-- `LoadProgram`, failed or not, changes the memory and the draw counter alone (R63, R64; D9). -/
theorem State.loadProgram_snd (s : State) (bytes : List Byte) :
    ∃ mem n, (s.loadProgram bytes).2 = { s with mem := mem, failedLoads := n } := by
  unfold State.loadProgram
  split
  · exact ⟨_, s.failedLoads, rfl⟩
  · exact ⟨_, _, rfl⟩

/-- A pair write is two register writes (R23). -/
theorem State.setPair_onlySets (s : State) (p : Pair) (v : Word) : OnlySets [p.hi, p.lo] s (s.setPair p v) :=
  (s.setReg_onlySets p.hi _).trans (State.setReg_onlySets _ p.lo _)

/-- A flag write is a write of F (R26). -/
theorem State.setFlag_onlySets (s : State) (fl : Flag) (on : Bool) : OnlySets [.F] s (s.setFlag fl on) :=
  s.setReg_onlySets .F _

/-- `SetFlags` is a write of F (R26). -/
theorem State.setFlags_onlySets (s : State) (z n h c : Bool) : OnlySets [.F] s (s.setFlags z n h c) :=
  s.setReg_onlySets .F _

/-- Every host operation keeps the low bits of F zero (R24). -/
theorem hostOp_flagsLow (op : HostOp) {s : State} (h : s.f &&& 0x0F#8 = 0#8) :
    (hostOp op s).2.f &&& 0x0F#8 = 0#8 := by
  cases op with
  | loadProgram bytes => rwa [hostOp_loadProgram_snd, State.loadProgram_f]
  | write addr v => exact (congrArg (· &&& 0x0F#8) (s.write_f addr v)).trans h
  | setReg r v => exact State.setReg_flagsLow r v h
  | setPair p v => exact State.setReg_flagsLow p.lo _ (State.setReg_flagsLow p.hi _ h)
  | setFlag fl on => exact State.setReg_flagsLow .F _ h
  | setFlags z n hc c => exact State.setReg_flagsLow .F _ h
  | read | readReg | readSp | readPc | readPair | readFlag | readTotalCycles | setSp | setPc => exact h

/-- Every host operation keeps the memory in canonical form. -/
theorem hostOp_wf (op : HostOp) {s : State} (h : Memory.wf s.mem = true) : Memory.wf (hostOp op s).2.mem = true := by
  cases op with
  | loadProgram bytes => rw [hostOp_loadProgram_snd]; exact State.loadProgram_wf bytes h
  | write addr v => exact State.write_wf addr v h
  | setReg r v => exact (congrArg Memory.wf (s.setReg_mem r v)).trans h
  | setPair p v => exact (congrArg Memory.wf (s.setPair_mem p v)).trans h
  | read | readReg | readSp | readPc | readPair | readFlag | readTotalCycles | setSp | setPc | setFlag | setFlags =>
    exact h

theorem hostOp_inv (op : HostOp) {s : State} (h : s.Inv) : (hostOp op s).2.Inv :=
  ⟨hostOp_flagsLow op h.flagsLow, hostOp_wf op h.memory⟩

/-- What no host operation touches: the state of the execution (R39, R184). -/
structure SameExecution (s t : State) : Prop where
  run : t.run = s.run
  totalCycles : t.totalCycles = s.totalCycles
  out : t.out = s.out
  policy : t.policy = s.policy

theorem OnlySets.sameExecution {rs : List Reg8} {s t : State} (h : OnlySets rs s t) : SameExecution s t :=
  ⟨h.run, h.totalCycles, h.out, h.policy⟩

theorem hostOp_sameExecution (op : HostOp) (s : State) : SameExecution s (hostOp op s).2 := by
  cases op with
  | loadProgram bytes =>
    obtain ⟨mem, n, hload⟩ := s.loadProgram_snd bytes
    rw [hostOp_loadProgram_snd, hload]
    exact ⟨rfl, rfl, rfl, rfl⟩
  | write addr v => exact ⟨s.write_run addr v, s.write_totalCycles addr v, s.write_out addr v, s.write_policy addr v⟩
  | setReg r v => exact (s.setReg_onlySets r v).sameExecution
  | setPair p v => exact (s.setPair_onlySets p v).sameExecution
  | setFlag fl on => exact (s.setFlag_onlySets fl on).sameExecution
  | setFlags z n h c => exact (s.setFlags_onlySets z n h c).sameExecution
  | read | readReg | readSp | readPc | readPair | readFlag | readTotalCycles | setSp | setPc =>
    exact ⟨rfl, rfl, rfl, rfl⟩

/-- A host read leaves the whole state as it was (R39, R60). -/
theorem hostOp_read_snd {op : HostOp} (h : isHostRead op = true) (s : State) : (hostOp op s).2 = s := by
  cases op with
  | read | readReg | readSp | readPc | readPair | readFlag | readTotalCycles => rfl
  | loadProgram | write | setReg | setSp | setPc | setPair | setFlag | setFlags => cases h

/-- A host `Read` of a mapped address answers the byte under its key (R60). -/
theorem hostOp_read_of_key {s : State} {addr : Word} {k : Nat} (h : (decodeAddr addr).key = some k) :
    hostOp (.read addr) s = (.byte (Memory.load s.mem k), s) := by
  rw [hostOp, State.read_of_key h]

/-! ### Runs -/

/-- A move is a Step or a host operation: what both keep, every move keeps. -/
theorem move_keeps {P : State → Prop} (hstep : ∀ s, P s → P (afterStep s))
    (hhost : ∀ op s, P s → P (hostOp op s).2) {m : Move} {s t : State} (h : P s) (hm : move m s = .next t) : P t := by
  cases m with
  | step => rw [eq_afterStep hm]; exact hstep s h
  | host op => rw [← Host.Outcome.next.inj hm]; exact hhost op s h

/-- What every move keeps, every run keeps. -/
theorem runMoves_keeps {P : State → Prop} (hmove : ∀ m s t, P s → move m s = .next t → P t) (ms : List Move)
    {s t : State} (h : P s) (hrun : runMoves ms s = .next t) : P t := by
  induction ms generalizing s with
  | nil => rw [← Host.Outcome.next.inj hrun]; exact h
  | cons m ms ih =>
    unfold runMoves at hrun
    split at hrun
    · next u hu => exact ih (hmove m s u h hu) hrun
    · cases hrun
    · cases hrun

/-- What holds at every construction and is kept by every move holds of every state a run reaches. -/
theorem Reachable.induct {P : State → Prop}
    (hconstruct : ∀ regs initMem policy, P (State.construct regs (Memory.ofFn initMem) policy))
    (hmove : ∀ m s t, P s → move m s = .next t → P t) {s : State} (h : Reachable s) : P s := by
  obtain ⟨regs, initMem, policy, ms, hrun⟩ := h
  exact runMoves_keeps hmove ms (hconstruct regs initMem policy) hrun

/-! ### Construction -/

@[simp] theorem State.construct_run (regs : InitRegs) (mem : Memory) (policy : UnknownPolicy) :
    (State.construct regs mem policy).run = .running := by cases regs <;> rfl
@[simp] theorem State.construct_totalCycles (regs : InitRegs) (mem : Memory) (policy : UnknownPolicy) :
    (State.construct regs mem policy).totalCycles = 0 := by cases regs <;> rfl
@[simp] theorem State.construct_mem (regs : InitRegs) (mem : Memory) (policy : UnknownPolicy) :
    (State.construct regs mem policy).mem = mem := by cases regs <;> rfl

theorem State.construct_flagsLow (regs : InitRegs) (mem : Memory) (policy : UnknownPolicy) :
    (State.construct regs mem policy).f &&& 0x0F#8 = 0#8 := by
  cases regs <;> simp [State.construct]

theorem State.construct_inv (regs : InitRegs) (initMem : Nat → Byte) (policy : UnknownPolicy) :
    (State.construct regs (Memory.ofFn initMem) policy).Inv where
  flagsLow := State.construct_flagsLow regs _ policy
  memory := by rw [State.construct_mem]; exact Memory.wf_ofFn initMem

/-- A mapped address of a new machine reads the `init_mem` byte of its storage (R202, D3). -/
theorem State.construct_read (regs : InitRegs) (initMem : Nat → Byte) (policy : UnknownPolicy) {addr : Word} {k : Nat}
    (h : (decodeAddr addr).key = some k) :
    (State.construct regs (Memory.ofFn initMem) policy).read addr = initMem k := by
  rw [State.read_of_key h, State.construct_mem, Memory.load_ofFn initMem (isStorageKey_of_key h)]

/-! ### One list for each memory -/

theorem Memory.wfFrom_cons_iff {lo k : Nat} {v : Byte} {m : Memory} :
    Memory.wfFrom lo ((k, v) :: m) = true ↔
      lo ≤ k ∧ isStorageKey k = true ∧ v ≠ unlistedByte ∧ Memory.wfFrom (k + 1) m = true := by
  simp only [Memory.wfFrom, Bool.and_eq_true, decide_eq_true_eq, and_assoc]

/-- The first key of a canonical list holds a byte that an unlisted key does not, so a canonical list that agrees there
cannot begin above it. -/
theorem Memory.le_of_load_eq_head {lo lo' k : Nat} {v : Byte} {m m' : Memory}
    (h : Memory.wfFrom lo ((k, v) :: m) = true) (h' : Memory.wfFrom lo' m' = true)
    (heq : Memory.load ((k, v) :: m) k = Memory.load m' k) : lo' ≤ k := by
  obtain ⟨-, -, hv, -⟩ := Memory.wfFrom_cons_iff.mp h
  by_contra hlt
  rw [Memory.load_of_lt m' h' (by omega), Memory.load, if_pos rfl] at heq
  exact hv heq

/-- Canonical lists that hold the same bytes are equal: their first keys are, then their first bytes, then the rest. -/
theorem Memory.eq_of_load_eq {lo lo' : Nat} {m m' : Memory} (h : Memory.wfFrom lo m = true)
    (h' : Memory.wfFrom lo' m' = true) (heq : ∀ k, Memory.load m k = Memory.load m' k) : m = m' := by
  induction m generalizing lo lo' m' with
  | nil =>
    cases m' with
    | nil => rfl
    | cons cell' m' =>
      obtain ⟨k', v'⟩ := cell'
      have hle : k' + 1 ≤ k' := Memory.le_of_load_eq_head (lo' := k' + 1) (m' := []) h' rfl (heq k').symm
      omega
  | cons cell m ih =>
    obtain ⟨k, v⟩ := cell
    cases m' with
    | nil =>
      have hle : k + 1 ≤ k := Memory.le_of_load_eq_head (lo' := k + 1) (m' := []) h rfl (heq k)
      omega
    | cons cell' m' =>
      obtain ⟨k', v'⟩ := cell'
      obtain ⟨-, hs, hv, hm⟩ := Memory.wfFrom_cons_iff.mp h
      obtain ⟨-, hs', hv', hm'⟩ := Memory.wfFrom_cons_iff.mp h'
      have hle : k' ≤ k :=
        Memory.le_of_load_eq_head h (Memory.wfFrom_cons_iff.mpr ⟨Nat.le_refl k', hs', hv', hm'⟩) (heq k)
      have hge : k ≤ k' :=
        Memory.le_of_load_eq_head h' (Memory.wfFrom_cons_iff.mpr ⟨Nat.le_refl k, hs, hv, hm⟩) (heq k').symm
      obtain rfl : k = k' := Nat.le_antisymm hge hle
      obtain rfl : v = v' := by simpa only [Memory.load, if_true] using heq k
      have htail : ∀ j, Memory.load m j = Memory.load m' j := by
        intro j
        by_cases hj : k = j
        · rw [Memory.load_of_lt m hm (by omega), Memory.load_of_lt m' hm' (by omega)]
        · simpa only [Memory.load, if_neg hj] using heq j
      rw [ih hm hm' htail]

/-! ### Register pairs -/

theorem hiByte_toNat (v : Word) : (hiByte v).toNat = v.toNat / 256 := by
  have hlt := v.isLt
  rw [hiByte, BitVec.extractLsb'_toNat, Nat.shiftRight_eq_div_pow]
  omega

theorem loByte_toNat (v : Word) : (loByte v).toNat = v.toNat % 256 := by
  rw [loByte, BitVec.extractLsb'_toNat, Nat.shiftRight_zero]

/-- The mask of R24 as arithmetic: it takes away the low nibble. -/
theorem masked_toNat (v : Byte) : (v &&& 0xF0#8).toNat = v.toNat - v.toNat % 16 := by
  have hmask : ∀ i < 8, (0xF0#8).getLsbD i = decide (4 ≤ i) := by decide
  have hshift : v &&& 0xF0#8 = (v >>> 4) <<< 4 := by
    apply BitVec.eq_of_getLsbD_eq
    intro i hi
    rw [BitVec.getLsbD_and, hmask i hi, BitVec.getLsbD_shiftLeft, BitVec.getLsbD_ushiftRight]
    by_cases h4 : 4 ≤ i
    · simp [hi, h4]
    · simp [h4]
  have hlt := v.isLt
  rw [hshift, BitVec.toNat_shiftLeft, BitVec.toNat_ushiftRight, Nat.shiftLeft_eq, Nat.shiftRight_eq_div_pow]
  omega

/-- Masking a joined word masks its two bytes. -/
theorem joinBytes_and (a b c d : Byte) : joinBytes a b &&& joinBytes c d = joinBytes (a &&& c) (b &&& d) :=
  BitVec.and_append

theorem Pair.hi_ne_lo (p : Pair) : p.hi ≠ p.lo := by cases p <;> decide

theorem Pair.hi_ne_F (p : Pair) : p.hi ≠ .F := by cases p <;> decide

theorem Pair.lo_eq_F_iff (p : Pair) : p.lo = .F ↔ p = .AF := by cases p <;> decide

theorem State.getReg_hi_setPair (s : State) (p : Pair) (v : Word) : (s.setPair p v).getReg p.hi = hiByte v := by
  rw [State.setPair, State.getReg_setReg, if_neg p.hi_ne_lo, State.getReg_setReg, if_pos rfl, regStored,
    if_neg p.hi_ne_F]

theorem State.getReg_lo_setPair (s : State) (p : Pair) (v : Word) :
    (s.setPair p v).getReg p.lo = regStored p.lo (loByte v) := by
  rw [State.setPair, State.getReg_setReg, if_pos rfl]

theorem State.getReg_hi_setPair_toNat (s : State) (p : Pair) (v : Word) :
    ((s.setPair p v).getReg p.hi).toNat = v.toNat / 256 := by
  rw [State.getReg_hi_setPair, hiByte_toNat]

theorem State.getReg_lo_setPair_toNat (s : State) (p : Pair) (v : Word) :
    ((s.setPair p v).getReg p.lo).toNat =
      if p = .AF then v.toNat % 256 - v.toNat % 16 else v.toNat % 256 := by
  simp only [State.getReg_lo_setPair, regStored, Pair.lo_eq_F_iff]
  split
  · rw [masked_toNat, loByte_toNat]; omega
  · exact loByte_toNat v

/-- A pair reads back what was written, for AF through the mask (R23, R24). -/
theorem State.getPair_setPair (s : State) (p : Pair) (v : Word) :
    (s.setPair p v).getPair p = if p = .AF then v &&& 0xFFF0#16 else v := by
  simp only [State.getPair, State.getReg_hi_setPair, State.getReg_lo_setPair, regStored, Pair.lo_eq_F_iff]
  split
  · calc joinBytes (hiByte v) (loByte v &&& 0xF0#8)
        = joinBytes (hiByte v &&& 0xFF#8) (loByte v &&& 0xF0#8) := by
          rw [show hiByte v &&& 0xFF#8 = hiByte v from BitVec.and_allOnes]
      _ = joinBytes (hiByte v) (loByte v) &&& joinBytes 0xFF#8 0xF0#8 := (joinBytes_and ..).symm
      _ = v &&& 0xFFF0#16 := by rw [joinBytes_hiByte_loByte]; rfl
  · exact joinBytes_hiByte_loByte v

/-! ### The flags as bits of F -/

/-- A flag stands in one of the bits 7 to 4 of F, which the mask of R24 keeps. -/
theorem Flag.bit_kept (fl : Flag) : (0xF0#8).getLsbD fl.bit = true := by cases fl <;> rfl

theorem Flag.bit_injective : Function.Injective Flag.bit := by
  intro fl g h
  cases fl <;> cases g <;> simp [Flag.bit] at h ⊢

theorem Flag.getLsbD_mask (fl : Flag) (i : Nat) : fl.mask.getLsbD i = decide (i = fl.bit) := by
  have hlt : fl.bit < 8 := by cases fl <;> decide
  rw [Flag.mask, ← BitVec.twoPow_eq, BitVec.getLsbD_twoPow]
  simp [hlt, eq_comm]

/-- A flag write, bit by bit: the flag's own bit, and the other bits through the mask of R24. -/
theorem State.getLsbD_setFlag_f (s : State) (fl : Flag) (on : Bool) (i : Nat) :
    (s.setFlag fl on).f.getLsbD i = if i = fl.bit then on else (s.f &&& 0xF0#8).getLsbD i := by
  have hbits : (if on then s.f ||| fl.mask else s.f &&& ~~~ fl.mask).getLsbD i =
      if i = fl.bit then on else s.f.getLsbD i := by
    cases on with
    | true => by_cases hi : i = fl.bit <;> simp [Flag.getLsbD_mask, hi]
    | false =>
      by_cases hi : i = fl.bit
      · simp [Flag.getLsbD_mask, hi]
      · simpa [Flag.getLsbD_mask, hi] using BitVec.lt_of_getLsbD
  rw [State.setFlag, State.setReg_F_f, BitVec.getLsbD_and, hbits]
  split
  · next h => rw [h, fl.bit_kept, Bool.and_true]
  · rw [BitVec.getLsbD_and]

/-- A written flag reads back, and every other flag stays (R26). -/
theorem State.flag_setFlag (s : State) (fl g : Flag) (on : Bool) :
    (s.setFlag fl on).flag g = if g = fl then on else s.flag g := by
  simp only [State.flag, State.getLsbD_setFlag_f, Flag.bit_injective.eq_iff, BitVec.getLsbD_and, g.bit_kept,
    Bool.and_true]

/-- Where the low nibble is zero, the mask of R24 changes nothing. -/
theorem and_F0_eq_self {v : Byte} (h : v &&& 0x0F#8 = 0#8) : v &&& 0xF0#8 = v := by
  calc v &&& 0xF0#8 = v &&& 0xF0#8 ||| v &&& 0x0F#8 := by rw [h, BitVec.or_zero]
    _ = v &&& (0xF0#8 ||| 0x0F#8) := BitVec.and_or_distrib_left.symm
    _ = v := BitVec.and_allOnes

/-- The byte of `SetFlags` as a sum, and its four flag bits (R26, D19). -/
theorem flagsByte_toNat : ∀ z n h c : Bool, (flagsByte z n h c &&& 0xF0#8).toNat =
    (if z then 0x80 else 0) + (if n then 0x40 else 0) + (if h then 0x20 else 0) + (if c then 0x10 else 0) := by
  decide

theorem flagsByte_bits : ∀ z n h c : Bool,
    (flagsByte z n h c &&& 0xF0#8).getLsbD Flag.Z.bit = z ∧ (flagsByte z n h c &&& 0xF0#8).getLsbD Flag.N.bit = n ∧
    (flagsByte z n h c &&& 0xF0#8).getLsbD Flag.H.bit = h ∧ (flagsByte z n h c &&& 0xF0#8).getLsbD Flag.C.bit = c := by
  decide

/-- Each of the four flags reads what `SetFlags` wrote (R26). -/
theorem State.flag_setFlags (s : State) (z n h c : Bool) :
    (s.setFlags z n h c).flag .Z = z ∧ (s.setFlags z n h c).flag .N = n ∧
    (s.setFlags z n h c).flag .H = h ∧ (s.setFlags z n h c).flag .C = c :=
  flagsByte_bits z n h c

/-! ### What an instruction does not read -/

/-- A register set before a write: overwritten by it, or set after it. -/
theorem State.setReg_setReg (s : State) (r q : Reg8) (v w : Byte) :
    (s.setReg r v).setReg q w = if r = q then s.setReg q w else (s.setReg q w).setReg r v := by
  cases r <;> cases q <;> rfl

theorem State.retired_setReg (s : State) (r : Reg8) (v : Byte) (n : Nat) :
    ((s.setReg r v).accrue n).returnCost n = ((s.accrue n).returnCost n).setReg r v := by
  cases r <;> rfl

theorem State.setPc_setReg (s : State) (r : Reg8) (v : Byte) (pc : Word) :
    (s.setReg r v).setPc pc = (s.setPc pc).setReg r v := by
  cases r <;> rfl

theorem State.report_setReg (s : State) (r : Reg8) (v : Byte) (op : Byte) (pc0 : Word) :
    (s.setReg r v).report op pc0 = (s.report op pc0).setReg r v := by
  unfold State.report
  rw [State.setReg_policy]
  split
  · rfl
  · cases r <;> rfl

theorem State.report_setSp (s : State) (v : Word) (op : Byte) (pc0 : Word) :
    (s.setSp v).report op pc0 = (s.report op pc0).setSp v := by
  unfold State.report
  rw [State.setSp_policy]
  split <;> rfl

/-- The end of a Step after one register write, with another register set beforehand. -/
theorem State.retired_write_setReg (s : State) (r q : Reg8) (v w : Byte) (n : Nat) :
    (((s.setReg r v).setReg q w).accrue n).returnCost n =
      if r ∈ [q] then ((s.setReg q w).accrue n).returnCost n
      else (((s.setReg q w).accrue n).returnCost n).setReg r v := by
  rw [State.setReg_setReg]
  simp only [List.mem_singleton]
  split
  · rfl
  · exact State.retired_setReg _ r v n

/-- The noninterference of R28 for registers: one that the instruction does not read, set beforehand, is set
afterwards too, unless the instruction writes it. -/
theorem afterExec_setReg (i : Instr) (s : State) {r : Reg8} (v : Byte) (hr : r ∉ readsOf i) :
    afterExec i (s.setReg r v) = if r ∈ writesOf i then afterExec i s else (afterExec i s).setReg r v := by
  have hget : ∀ q, q ∈ readsOf i → (s.setReg r v).getReg q = s.getReg q := fun q hq =>
    (s.setReg_onlySets r v).regs q fun h => hr (List.mem_singleton.mp h ▸ hq)
  cases i with
  | nop => exact s.retired_setReg r v 4
  | ldBn n => exact s.retired_write_setReg r .B v n 8
  | ldCn n => exact s.retired_write_setReg r .C v n 8
  | ldAn n => exact s.retired_write_setReg r .A v n 8
  | ldAB =>
    have hb : (s.setReg r v).b = s.b := hget .B (by decide)
    rw [afterExec, hb]
    exact s.retired_write_setReg r .A v s.b 4
  | ldAC =>
    have hc : (s.setReg r v).c = s.c := hget .C (by decide)
    rw [afterExec, hc]
    exact s.retired_write_setReg r .A v s.c 4
  | addAB =>
    have ha : (s.setReg r v).a = s.a := hget .A (by decide)
    have hb : (s.setReg r v).b = s.b := hget .B (by decide)
    have hrA : r ≠ .A := fun h => hr (h ▸ by decide)
    rw [afterExec, ha, hb, s.setReg_setReg, if_neg hrA]
    exact (State.retired_write_setReg _ r .F v _ 4).trans (if_congr (by simp [writesOf, hrA]) rfl rfl)
  | jpNn nn =>
    rw [afterExec, State.setPc_setReg]
    exact State.retired_setReg _ r v 16
  | unknown op =>
    rw [afterExec, State.report_setReg, State.setReg_pc]
    exact State.retired_setReg _ r v 4

/-- The noninterference of R28, R31 for SP: no instruction reads or writes it. -/
theorem afterExec_setSp (i : Instr) (s : State) (v : Word) : afterExec i (s.setSp v) = (afterExec i s).setSp v := by
  cases i with
  | unknown op => rw [afterExec, State.report_setSp]; rfl
  | nop | ldBn | ldCn | ldAn | ldAB | ldAC | addAB | jpNn => rfl

/-! ### The statements -/

/-- Settles O13: the masked write, and the invariant over constructions, Steps and host operations. -/
theorem fLowNibbleIsAlwaysZero : Obligations.FLowNibbleIsAlwaysZero := by
  have hmove : ∀ (m : Move) (s t : State), s.f &&& 0x0F#8 = 0#8 → move m s = .next t → t.f &&& 0x0F#8 = 0#8 :=
    fun _ _ _ => move_keeps (P := fun s => s.f &&& 0x0F#8 = 0#8) (fun _ => afterStep_flagsLow)
      (fun op _ => hostOp_flagsLow op)
  exact ⟨fun _ _ => rfl, fun _ _ => rfl, State.construct_flagsLow, hmove,
    fun _ => Reachable.induct (fun regs _ policy => State.construct_flagsLow regs _ policy) hmove⟩

/-- Settles O43, by induction on the number of Steps. -/
theorem stepsNeverChangeMemoryOrIdleRegisters : Obligations.StepsNeverChangeMemoryOrIdleRegisters := by
  intro n s
  have h := iterate_afterStep_keptBySteps n s
  exact ⟨_, core_run_eq n s, State.read_eq_of_mem h.mem, h.mem, h.getPair (by decide) (by decide),
    h.getPair (by decide) (by decide), h.sp, h.run, h.policy, h.failedLoads⟩

/-- Settles O45. -/
theorem stepKeepsInvariant : Obligations.StepKeepsInvariant := by
  intro s t h hstep
  rw [eq_afterStep hstep]
  exact afterStep_inv h

/-- Settles O47: no move of the machine writes the run state. -/
theorem noReachableStateIsHalted : Obligations.NoReachableStateIsHalted := by
  have hconstruct : ∀ regs (initMem : Nat → Byte) policy,
      (State.construct regs (Memory.ofFn initMem) policy).run = .running ∧
      (State.construct regs (Memory.ofFn initMem) policy).Inv :=
    fun regs initMem policy => ⟨State.construct_run regs _ policy, State.construct_inv regs initMem policy⟩
  have hmove : ∀ (m : Move) (s t : State), s.run = .running ∧ s.Inv → move m s = .next t → t.run = .running ∧ t.Inv :=
    fun _ _ _ => move_keeps (P := fun s => s.run = .running ∧ s.Inv)
      (fun s h => ⟨(afterStep_keptBySteps s).run.trans h.1, afterStep_inv h.2⟩)
      (fun op s h => ⟨(hostOp_sameExecution op s).run.trans h.1, hostOp_inv op h.2⟩)
  exact ⟨hconstruct, fun m s t hrun hinv => hmove m s t ⟨hrun, hinv⟩, fun _ => Reachable.induct hconstruct hmove⟩

/-- Settles O3: a read of a new machine goes through the address decoder to `init_mem`. -/
theorem constructionHoldsAnyInitialMemory : Obligations.ConstructionHoldsAnyInitialMemory := by
  intro regs initMem policy addr
  have hread : ∀ {loc : Loc} {k : Nat}, decodeAddr addr = loc → loc.key = some k →
      (State.construct regs (Memory.ofFn initMem) policy).read addr = initMem k :=
    fun hd hk => State.construct_read regs initMem policy (by rw [hd, hk])
  exact ⟨State.construct_run regs _ policy, State.construct_totalCycles regs _ policy,
    fun _ hd => hread hd rfl, fun _ hd => hread hd rfl, fun _ hd => hread hd rfl⟩

/-- Settles O41. -/
theorem onlyAddABChangesFlags : Obligations.OnlyAddABChangesFlags := by
  intro s t hstep hne
  rw [eq_afterStep hstep] at hne
  exact not_not.mp fun h => hne (afterStep_f s h)

/-- Settles O46. -/
theorem hostOperationsKeepInvariant : Obligations.HostOperationsKeepInvariant :=
  fun op _ h => hostOp_inv op h

/-- Settles O48. -/
theorem hostOperationsLeaveExecutionStateAlone : Obligations.HostOperationsLeaveExecutionStateAlone := by
  intro op s
  obtain ⟨hrun, hcycles, hout, hpolicy⟩ := hostOp_sameExecution op s
  exact ⟨hrun, hcycles, hout, hpolicy, fun h => hostOp_read_snd h s⟩

/-- Settles O9. -/
theorem canonicalMemoryIsUnique : Obligations.CanonicalMemoryIsUnique :=
  fun _ _ h h' heq => Memory.eq_of_load_eq h h' heq

/-- Settles O12: a pair write is two register writes. -/
theorem pairWritesThroughAndReadsBack : Obligations.PairWritesThroughAndReadsBack := by
  intro s p v
  have hlo := s.getReg_lo_setPair_toNat p v
  have hback := s.getPair_setPair p v
  refine ⟨joinBytes_toNat _ _, s.getReg_hi_setPair_toNat p v, fun hp => ?_, fun hp => ?_, s.setPair_onlySets p v⟩
  · rw [if_neg hp] at hlo hback
    exact ⟨hlo, hback⟩
  · rw [if_pos hp] at hlo hback
    exact ⟨hlo, hback⟩

/-- Settles O14: the premise makes the mask of R24 the identity on the bits that are not written. -/
theorem flagWritesAreIndependent : Obligations.FlagWritesAreIndependent := by
  refine ⟨fun s fl on hlow => ⟨?_, fun g hg => ?_, fun i hi => ?_, s.setFlag_onlySets fl on⟩, fun s z n h c => ?_⟩
  · rw [State.flag_setFlag, if_pos rfl]
  · rw [State.flag_setFlag, if_neg hg]
  · rw [State.getLsbD_setFlag_f, if_neg hi, and_F0_eq_self hlow]
  · obtain ⟨hz, hn, hh, hc⟩ := s.flag_setFlags z n h c
    exact ⟨flagsByte_toNat z n h c, hz, hn, hh, hc, s.setFlags_onlySets z n h c⟩

/-- Settles O42: the frame of each instruction, and the two noninterference lemmas. -/
theorem instructionsTouchOnlyTheirTableRegisters : Obligations.InstructionsTouchOnlyTheirTableRegisters := by
  intro i s
  have hframe := afterExec_onlyChanges i s
  refine ⟨afterExec i s, exec_eq i s, hframe.regs, hframe.sp, fun r v hr => ?_, fun v => ?_⟩
  · rw [exec_eq, afterExec_setReg i s v hr]
  · rw [exec_eq, afterExec_setSp]

/-- Settles O52. -/
theorem hostSettersWriteOnlyTheirTarget : Obligations.HostSettersWriteOnlyTheirTarget := by
  intro s
  refine ⟨fun r v => ⟨rfl, ?_, s.setReg_onlySets r v⟩, fun _ => rfl, fun _ => rfl, fun p v => ?_, fun fl on => ?_,
    fun z n h c => ?_⟩
  · exact (s.getReg_setReg r r v).trans (if_pos rfl)
  · exact ⟨rfl, s.getReg_hi_setPair_toNat p v, s.getReg_lo_setPair_toNat p v, s.setPair_onlySets p v⟩
  · exact ⟨rfl, (s.flag_setFlag fl fl on).trans (if_pos rfl),
      fun g hg => (s.flag_setFlag fl g on).trans (if_neg hg), s.setFlag_onlySets fl on⟩
  · obtain ⟨hz, hn, hh, hc⟩ := s.flag_setFlags z n h c
    exact ⟨rfl, hz, hn, hh, hc, s.setFlags_onlySets z n h c⟩

/-- Settles O1. -/
theorem zeroedConstructionClearsRegisters : Obligations.ZeroedConstructionClearsRegisters := by
  refine ⟨fun mem policy => ⟨fun r => ?_, rfl, rfl⟩, [], .nop, rfl⟩
  cases r <;> rfl

/-- Settles O2: the pairs join the bytes of their registers, and the flags are the bits of F = 0xB0. -/
theorem postBootConstructionSetsRegisters : Obligations.PostBootConstructionSetsRegisters :=
  fun _ _ =>
    ⟨(by decide : joinBytes 0x01#8 0xB0#8 = 0x01B0#16), (by decide : joinBytes 0x00#8 0x13#8 = 0x0013#16),
      (by decide : joinBytes 0x00#8 0xD8#8 = 0x00D8#16), (by decide : joinBytes 0x01#8 0x4D#8 = 0x014D#16), rfl, rfl,
      (by decide : (0xB0#8).getLsbD 7 = true), (by decide : (0xB0#8).getLsbD 6 = false),
      (by decide : (0xB0#8).getLsbD 5 = true), (by decide : (0xB0#8).getLsbD 4 = true)⟩

/-- Settles O51: the register reads are fields, and `Read` goes through the address decoder. -/
theorem hostReadsAnswerTheNamedValue : Obligations.HostReadsAnswerTheNamedValue := by
  intro s
  refine ⟨⟨rfl, rfl, rfl, rfl, rfl, rfl, rfl, rfl⟩, rfl, rfl, ⟨rfl, rfl, rfl, rfl⟩, ⟨rfl, rfl, rfl, rfl⟩, rfl,
    fun addr => ⟨fun hd => ?_, fun i hd => ?_, fun i hd => ?_, fun i hd => ?_⟩⟩
  · rw [hostOp, State.read_unmapped hd, unmappedByte]
  all_goals exact hostOp_read_of_key (by rw [hd]; rfl)

end Sys2Proof.Machine

/-! Proofs of the statements about the Address Space (20_memory.md): first what the address decoder, `Write`,
`LoadProgram`, the fetch of an unknown opcode and the cost of a Step say, once each; the statements last. -/

namespace Sys2Proof.Machine

open Sys2Proof.Config

/-! ### The decoder by its results -/

theorem decodeAddr_eq_rom_iff {addr : Word} {i : Nat} :
    decodeAddr addr = .rom i ↔ i < 0x8000 ∧ addr.toNat = i := by
  rcases decodeAddr_cases addr with ⟨hr, hd⟩ | ⟨hr, hd⟩ | ⟨hr, hd⟩ | ⟨hr, hd⟩ | ⟨hr, hd⟩ <;>
    simp only [hd, Loc.rom.injEq, reduceCtorEq, false_iff] <;> omega

/-- A working RAM byte has its base address, and the mirror address where the mirror reaches it (R54). -/
theorem decodeAddr_eq_wram_iff {addr : Word} {i : Nat} :
    decodeAddr addr = .wram i ↔
      (i < 0x2000 ∧ addr.toNat = 0xC000 + i) ∨ (i < 0x1E00 ∧ addr.toNat = 0xE000 + i) := by
  rcases decodeAddr_cases addr with ⟨hr, hd⟩ | ⟨hr, hd⟩ | ⟨hr, hd⟩ | ⟨hr, hd⟩ | ⟨hr, hd⟩ <;>
    simp only [hd, Loc.wram.injEq, reduceCtorEq, false_iff] <;> omega

theorem decodeAddr_eq_hram_iff {addr : Word} {i : Nat} :
    decodeAddr addr = .hram i ↔ i < 0x7F ∧ addr.toNat = 0xFF80 + i := by
  rcases decodeAddr_cases addr with ⟨hr, hd⟩ | ⟨hr, hd⟩ | ⟨hr, hd⟩ | ⟨hr, hd⟩ | ⟨hr, hd⟩ <;>
    simp only [hd, Loc.hram.injEq, reduceCtorEq, false_iff] <;> omega

/-- The mirror leads where the address less 0x2000 leads (R54). -/
theorem decodeAddr_sub_mirror {addr : Word} (hlo : 0xE000 ≤ addr.toNat) (hhi : addr.toNat ≤ 0xFDFF) :
    decodeAddr addr = decodeAddr (addr - 0x2000#16) := by
  have hsub : (addr - 0x2000#16).toNat = addr.toNat - 0x2000 :=
    BitVec.toNat_sub_of_le (BitVec.le_def.mpr (Nat.le_trans (by decide) hlo))
  have hbase : decodeAddr (addr - 0x2000#16) = .wram (addr.toNat - 0xE000) :=
    decodeAddr_eq_wram_iff.mpr (.inl (by omega))
  rw [hbase]
  exact decodeAddr_eq_wram_iff.mpr (.inr (by omega))

/-- The key of a ROM address is the address itself (R52). -/
theorem key_of_rom {addr : Word} (h : addr.toNat < 0x8000) : (decodeAddr addr).key = some addr.toNat := by
  rw [decodeAddr_eq_rom_iff.mpr ⟨h, rfl⟩, Loc.key, romBase, Nat.zero_add]

/-- No address above ROM leads to a ROM byte (R56). -/
theorem le_key_of_le {addr : Word} {k : Nat} (h : 0x8000 ≤ addr.toNat) (hk : (decodeAddr addr).key = some k) :
    0x8000 ≤ k := by
  cases hd : decodeAddr addr with
  | rom i => exact absurd (decodeAddr_eq_rom_iff.mp hd) (by omega)
  | wram i => rw [hd, Loc.key, wramBase, Option.some.injEq] at hk; omega
  | hram i => rw [hd, Loc.key, hramBase, Option.some.injEq] at hk; omega
  | unmapped => rw [hd] at hk; cases hk

/-! ### Read and Write go through the decoder -/

/-- A read depends on the address only through the decoder (R56, R60). -/
theorem State.read_congr {x y : Word} (h : decodeAddr x = decodeAddr y) (s : State) : s.read x = s.read y := by
  unfold State.read; rw [h]

/-- So does a write (R56, R61). -/
theorem State.write_congr {x y : Word} (h : decodeAddr x = decodeAddr y) (s : State) (v : Byte) :
    s.write x v = s.write y v := by
  unfold State.write; rw [h]

/-- `Write` changes nothing but the memory (R61). -/
theorem State.write_frame (s : State) (addr : Word) (v : Byte) :
    s.write addr v = { s with mem := (s.write addr v).mem } := by
  cases hk : (decodeAddr addr).key with
  | none => rw [State.write_unmapped (Loc.key_eq_none.mp hk)]
  | some k => rw [State.write_of_key hk]

theorem hostOp_write (s : State) (addr : Word) (v : Byte) : hostOp (.write addr v) s = (.done, s.write addr v) := rfl

/-! ### LoadProgram -/

theorem hostOp_loadProgram_of_le {s : State} {bytes : List Byte} (h : bytes.length ≤ romSize) :
    hostOp (.loadProgram bytes) s = (.done, s.loadRom bytes) := by
  simp only [hostOp, State.loadProgram, if_pos h]

theorem hostOp_loadProgram_of_lt {s : State} {bytes : List Byte} (h : romSize < bytes.length) :
    hostOp (.loadProgram bytes) s = (.loadFailed .programTooLarge, s.scrambleRom) := by
  simp only [hostOp, State.loadProgram, if_neg (Nat.not_le.mpr h)]

/-- Above ROM, two memories that agree on the storage keys above ROM read alike. -/
theorem State.read_eq_above_rom {s t : State} {addr : Word} (haddr : 0x8000 ≤ addr.toNat)
    (h : ∀ k, isStorageKey k = true → 0x8000 ≤ k → Memory.load t.mem k = Memory.load s.mem k) :
    t.read addr = s.read addr := by
  cases hk : (decodeAddr addr).key with
  | none =>
    have hu := Loc.key_eq_none.mp hk
    rw [State.read_unmapped hu, State.read_unmapped hu]
  | some k =>
    rw [State.read_of_key hk, State.read_of_key hk]
    exact h k (isStorageKey_of_key hk) (le_key_of_le haddr hk)

/-- A successful load holds the bytes it copied on their indices, and the old byte on every other key (R63). -/
theorem State.load_loadRom {s : State} {bytes : List Byte} (h : Memory.wf s.mem = true)
    (hl : bytes.length ≤ romSize) (k : Nat) :
    Memory.load (s.loadRom bytes).mem k = (bytes[k]?).getD (Memory.load s.mem k) := by
  have hload := Memory.load_storeBytes bytes (block_load hl) h k
  rw [romBase, Nat.zero_add, Nat.sub_zero] at hload
  rw [State.loadRom, romBase, hload]
  by_cases hk : k < bytes.length
  · rw [if_pos ⟨Nat.zero_le k, hk⟩, List.getD_eq_getElem _ _ hk, List.getElem?_eq_getElem hk, Option.getD_some]
  · rw [if_neg fun hc => hk hc.2, List.getElem?_eq_none (Nat.le_of_not_lt hk), Option.getD_none]

/-- What a read answers after a successful load (R63). -/
theorem State.read_loadRom {s : State} {bytes : List Byte} (h : Memory.wf s.mem = true)
    (hl : bytes.length ≤ romSize) (addr : Word) :
    (s.loadRom bytes).read addr = (bytes[addr.toNat]?).getD (s.read addr) := by
  have habove : ∀ k, 0x8000 ≤ k → bytes[k]? = none := fun k hk =>
    List.getElem?_eq_none (Nat.le_trans hl hk)
  rcases Nat.lt_or_ge addr.toNat 0x8000 with hrom | hrom
  · rw [State.read_of_key (key_of_rom hrom), State.read_of_key (key_of_rom hrom), State.load_loadRom h hl]
  · rw [habove _ hrom, Option.getD_none]
    refine State.read_eq_above_rom hrom fun k _ hk => ?_
    rw [State.load_loadRom h hl, habove k hk, Option.getD_none]

/-- After a failed load a ROM key holds its free draw, every other storage key its old byte (R64; D9). -/
theorem State.load_scrambleRom (s : State) {k : Nat} (hk : isStorageKey k = true) :
    Memory.load s.scrambleRom.mem k =
      if k < 0x8000 then failedLoadByte s.failedLoads k else Memory.load s.mem k := by
  rw [State.scrambleRom, Memory.load_ofFn _ hk]
  simp only [romBase, romSize, Nat.zero_le, true_and, Nat.zero_add, Nat.sub_zero]

/-- A ROM address reads its free draw after a failed load (R64). -/
theorem State.read_scrambleRom_rom (s : State) {addr : Word} (h : addr.toNat < 0x8000) :
    s.scrambleRom.read addr = failedLoadByte s.failedLoads addr.toNat := by
  rw [State.read_of_key (key_of_rom h), State.load_scrambleRom s (isStorageKey_of_key (key_of_rom h)), if_pos h]

/-- A failed load spares every address above ROM (R64; D9). -/
theorem State.read_scrambleRom_above (s : State) {addr : Word} (h : 0x8000 ≤ addr.toNat) :
    s.scrambleRom.read addr = s.read addr :=
  State.read_eq_above_rom h fun k hs hk => by rw [State.load_scrambleRom s hs, if_neg (Nat.not_lt.mpr hk)]

/-! ### Steps and moves -/

/-- The fetch of a byte that R95 does not list is one `Fetch8` (R96, R113). -/
theorem fetchInstr_unknown {s : State} (h : (Instr.unknown (s.read s.pc)).wellFormed = true) :
    fetchInstr s = (.unknown (s.read s.pc), (fetch8 s).2) := by
  unfold fetchInstr
  simp only [fetch8_fst, dispatchTable_unknown h]
  rfl

/-- Only well-formed instructions are fetched (R97). -/
theorem fetchInstr_wellFormed (s : State) : (fetchInstr s).1.wellFormed = true := by
  unfold fetchInstr
  simp only [fetch8_fst]
  rcases dispatchTable_cases (s.read s.pc) with ⟨-, hd⟩ | ⟨-, hd⟩ | ⟨-, hd⟩ | ⟨-, hd⟩ | ⟨-, hd⟩ | ⟨-, hd⟩ |
    ⟨-, hd⟩ | ⟨-, hd⟩ | ⟨hwf, hd⟩ <;> rw [hd]
  on_goal 9 => exact hwf
  all_goals rfl

/-- A meaning gives out the cost of its instruction's descriptor (R117). -/
theorem afterExec_cost {i : Instr} (h : i.wellFormed = true) (s : State) :
    (afterExec i s).out.cost = some (dispatchTable i.opcode).cycles := by
  cases i with
  | unknown op => rw [Instr.opcode, dispatchTable_unknown h]; rfl
  | nop | ldBn | ldCn | ldAn | ldAB | ldAC | addAB | jpNn => rfl

/-- A Running Step returns the cost of the descriptor that the byte at PC selects (R117). -/
theorem afterStep_cost {s : State} (h : s.run = .running) :
    (afterStep s).out.cost = some (dispatchTable (s.read s.pc)).cycles := by
  rw [afterStep_running h, afterExec_cost (fetchInstr_wellFormed _), fetchInstr_opcode]
  rfl

/-- A host operation other than `Write` and `LoadProgram` leaves the memory alone (R65). -/
theorem hostOp_mem {op : HostOp} (hwrite : ∀ addr v, op ≠ .write addr v) (hload : ∀ bytes, op ≠ .loadProgram bytes)
    (s : State) : (hostOp op s).2.mem = s.mem := by
  cases op with
  | loadProgram bytes => exact absurd rfl (hload bytes)
  | write addr v => exact absurd rfl (hwrite addr v)
  | setReg r v => exact (s.setReg_onlySets r v).mem
  | setPair p v => exact (s.setPair_onlySets p v).mem
  | setFlag fl on => exact (s.setFlag_onlySets fl on).mem
  | setFlags z n h c => exact (s.setFlags_onlySets z n h c).mem
  | read | readReg | readSp | readPc | readPair | readFlag | readTotalCycles | setSp | setPc => rfl

/-! ### The statements -/

/-- Settles O6: read after write, with the whole-state frame. -/
theorem writeIsReadBackThroughEveryAlias : Obligations.WriteIsReadBackThroughEveryAlias :=
  fun s x y v h => ⟨State.read_write h x y v, s.write_frame x v⟩

/-- Settles O7: reads and writes go through the decoder, which sends a mirror address to its base; the base addresses
from 0xDE00 on are the ones the mirror does not reach. -/
theorem mirrorSelectsWorkingRam : Obligations.MirrorSelectsWorkingRam := by
  refine ⟨fun addr hlo hhi => ⟨decodeAddr_eq_wram_iff.mpr (.inr (by omega)), fun s v => ?_⟩,
    fun addr other hlo hhi heq => ?_⟩
  · have hbase := decodeAddr_sub_mirror hlo hhi
    exact ⟨s.read_congr hbase, s.write_congr hbase v⟩
  · have haddr : decodeAddr addr = .wram (addr.toNat - 0xC000) := decodeAddr_eq_wram_iff.mpr (.inl (by omega))
    have hother := decodeAddr_eq_wram_iff.mp (heq.trans haddr)
    exact BitVec.eq_of_toNat_eq (by omega)

/-- Settles O8: by where `x` leads, since only a working RAM byte has two addresses. -/
theorem aliasesAreExactlyTheMirrorPairs : Obligations.AliasesAreExactlyTheMirrorPairs := by
  intro x y hne
  have hnat : x.toNat ≠ y.toNat := fun h => hne (BitVec.eq_of_toNat_eq h)
  rw [eq_comm (a := decodeAddr x)]
  cases hx : decodeAddr x with
  | rom i =>
    have hxr := decodeAddr_eq_rom_iff.mp hx
    simp only [decodeAddr_eq_rom_iff, ne_eq, reduceCtorEq, not_false_eq_true, and_true]
    omega
  | wram i =>
    have hxr := decodeAddr_eq_wram_iff.mp hx
    simp only [decodeAddr_eq_wram_iff, ne_eq, reduceCtorEq, not_false_eq_true, and_true]
    omega
  | hram i =>
    have hxr := decodeAddr_eq_hram_iff.mp hx
    simp only [decodeAddr_eq_hram_iff, ne_eq, reduceCtorEq, not_false_eq_true, and_true]
    omega
  | unmapped =>
    have hxr := (decodeAddr_unmapped_iff x).mp hx
    simp only [ne_eq, not_true_eq_false, and_false, false_iff]
    omega

/-- Settles O10: the copy loop of R63. -/
theorem loadProgramCopiesIntoRom : Obligations.LoadProgramCopiesIntoRom := by
  intro s bytes h hl
  rw [hostOp_loadProgram_of_le hl]
  exact ⟨rfl, State.read_loadRom h hl, rfl⟩

/-- Settles O11: the free draws of R64. -/
theorem oversizedLoadFailsAndSparesRam : Obligations.OversizedLoadFailsAndSparesRam := by
  intro s bytes hl
  rw [hostOp_loadProgram_of_lt hl]
  exact ⟨rfl, fun _ h => s.read_scrambleRom_rom (Nat.lt_succ_of_le h), fun _ h => s.read_scrambleRom_above h, rfl⟩

/-- Settles O29: the byte read is 0xFF, which R95 does not list, and an unknown opcode changes nothing. -/
theorem unmappedPcRunsUnknownOpcode : Obligations.UnmappedPcRunsUnknownOpcode := by
  intro s hrun hpc
  have hread : s.beginStep.read s.beginStep.pc = 0xFF#8 := State.read_unmapped hpc
  have hfetch : fetchInstr s.beginStep = (.unknown 0xFF#8, (fetch8 s.beginStep).2) := by
    rw [fetchInstr_unknown (by rw [hread]; decide), hread]
  have hstep : step s = exec (.unknown 0xFF#8) (fetch8 s.beginStep).2 := by rw [step_running hrun, hfetch]
  have hframe : OnlyChanges [] (fetch8 s.beginStep).2 (afterExec (.unknown 0xFF#8) (fetch8 s.beginStep).2) :=
    afterExec_onlyChanges (.unknown 0xFF#8) _
  refine ⟨hstep, _, hstep.trans (exec_eq _ _), ?_, fun r => ?_, hframe.bytes, hframe.sp, hframe.run.trans hrun⟩
  · simp [afterExec]
  · rw [hframe.regs r List.not_mem_nil]
    cases r <;> rfl

/-- Settles O30: the next fetch reads the byte written, which selects the descriptor. -/
theorem hostWriteIsSeenByTheNextFetch : Obligations.HostWriteIsSeenByTheNextFetch := by
  intro s v hrun hwf hpc
  rw [hostOp_write]
  have hread : (s.write s.pc v).read (s.write s.pc v).pc = v := by
    rw [State.write_pc, State.read_write hwf, if_pos ⟨rfl, hpc⟩]
  refine ⟨?_, _, step_eq _, ?_⟩
  · rw [fetchInstr_opcode, State.beginStep_read, State.beginStep_pc, hread]
  · rw [afterStep_cost ((s.write_run s.pc v).trans hrun), hread]

/-- Settles O53: the host's `Write` is the Address Space's. -/
theorem hostWriteStoresOneByte : Obligations.HostWriteStoresOneByte := by
  intro s addr v
  rw [hostOp_write]
  refine ⟨rfl, State.write_unmapped, s.write_frame addr v, fun hwf => ⟨fun hm x hx => ?_, fun x hx => ?_⟩⟩
  · rw [State.read_write hwf, if_pos ⟨hx.symm, hm⟩]
  · rw [State.read_write hwf, if_neg fun hc => hx hc.1.symm]

/-- Settles O54: a Step writes no memory, and of the host operations only the two named do. -/
theorem onlyWriteAndLoadProgramChangeMemory : Obligations.OnlyWriteAndLoadProgramChangeMemory := by
  intro m s t hm
  by_cases hwrite : ∃ addr v, m = .host (.write addr v)
  · exact .inl hwrite
  by_cases hload : ∃ bytes, m = .host (.loadProgram bytes)
  · exact .inr (.inl hload)
  have hmem : t.mem = s.mem := by
    cases m with
    | step => rw [eq_afterStep hm, (afterStep_keptBySteps s).mem]
    | host op =>
      rw [← Host.Outcome.next.inj hm]
      exact hostOp_mem (fun addr v h => hwrite ⟨addr, v, congrArg _ h⟩) (fun bytes h => hload ⟨bytes, congrArg _ h⟩) s
  exact .inr (.inr ⟨hmem, State.read_eq_of_mem hmem⟩)

/-- Settles O4: the ranges of the map by the location each leads to. -/
theorem addressDecodeFollowsRegionMap : Obligations.AddressDecodeFollowsRegionMap :=
  fun addr => ⟨fun _ => decodeAddr_eq_rom_iff.mpr (by omega), fun _ => decodeAddr_eq_wram_iff.mpr (by omega),
    fun _ => decodeAddr_eq_wram_iff.mpr (by omega), fun _ => decodeAddr_eq_hram_iff.mpr (by omega),
    fun _ => (decodeAddr_unmapped_iff addr).mpr (by have := addr.isLt; omega)⟩

/-- Settles O5. -/
theorem unmappedReadsFFAndDiscardsWrites : Obligations.UnmappedReadsFFAndDiscardsWrites := by
  intro addr
  refine ⟨?_, fun h s v => ⟨State.read_unmapped h, State.write_unmapped h⟩⟩
  rw [decodeAddr_unmapped_iff]
  omega

end Sys2Proof.Machine

/-! PROOFS. The encoding (30_encoding.md): decoder and encoder are inverse to each other, and the opcode byte alone fixes
which instructions can follow. -/

namespace Sys2Proof

/-! ### The formats -/

/-- Every instruction a format yields is well-formed, and its encoding is the opcode byte and then the operand bytes in
the order the format reads them (R91 to R93). -/
def Form.EncodesAs (op : Byte) : Form → Prop
  | .op i => i.wellFormed = true ∧ encode i = [op]
  | .opImm8 mk => ∀ n, (mk n).wellFormed = true ∧ encode (mk n) = [op, n]
  | .opImm16 mk => ∀ lo hi,
      (mk (joinBytes hi lo)).wellFormed = true ∧ encode (mk (joinBytes hi lo)) = [op, lo, hi]

theorem encode_jpNn_joinBytes (hi lo : Byte) : encode (.jpNn (joinBytes hi lo)) = [0xC3#8, lo, hi] := by
  simp [encode, Instr.opcode, Instr.operands]

/-- The rows of the table agree with the encoder (R95, R96). -/
theorem dispatchTable_form_encodesAs (op : Byte) : (dispatchTable op).form.EncodesAs op := by
  rcases dispatchTable_cases op with ⟨rfl, hd⟩ | ⟨rfl, hd⟩ | ⟨rfl, hd⟩ | ⟨rfl, hd⟩ | ⟨rfl, hd⟩ | ⟨rfl, hd⟩ |
    ⟨rfl, hd⟩ | ⟨rfl, hd⟩ | ⟨hwf, hd⟩ <;> rw [hd]
  · exact ⟨rfl, rfl⟩
  · exact fun _ => ⟨rfl, rfl⟩
  · exact fun _ => ⟨rfl, rfl⟩
  · exact fun _ => ⟨rfl, rfl⟩
  · exact ⟨rfl, rfl⟩
  · exact ⟨rfl, rfl⟩
  · exact ⟨rfl, rfl⟩
  · exact fun lo hi => ⟨rfl, encode_jpNn_joinBytes hi lo⟩
  · exact ⟨hwf, rfl⟩

/-! ### The decoder, format by format -/

section Formats

variable {op : Byte} {i : Instr}

theorem decode_of_form_op (h : (dispatchTable op).form = .op i) (rest : List Byte) :
    decode (op :: rest) = .ok (i, rest) := by
  simp only [decode, h]

theorem decode_of_form_opImm8 {mk : Byte → Instr} (h : (dispatchTable op).form = .opImm8 mk)
    (n : Byte) (rest : List Byte) : decode (op :: n :: rest) = .ok (mk n, rest) := by
  simp only [decode, h]

theorem decode_of_form_opImm16 {mk : Word → Instr} (h : (dispatchTable op).form = .opImm16 mk)
    (lo hi : Byte) (rest : List Byte) : decode (op :: lo :: hi :: rest) = .ok (mk (joinBytes hi lo), rest) := by
  simp only [decode, h]

/-- The bytes of a decoded instruction, by the format of its opcode (R91 to R93). -/
theorem eq_of_decode_ok {bytes rest : List Byte} (h : decode bytes = .ok (i, rest)) :
    ∃ op, ((dispatchTable op).form = .op i ∧ bytes = op :: rest) ∨
      (∃ mk n, (dispatchTable op).form = .opImm8 mk ∧ i = mk n ∧ bytes = op :: n :: rest) ∨
      (∃ mk lo hi, (dispatchTable op).form = .opImm16 mk ∧ i = mk (joinBytes hi lo) ∧
        bytes = op :: lo :: hi :: rest) := by
  cases bytes with
  | nil => cases h
  | cons op tail =>
    refine ⟨op, ?_⟩
    cases hf : (dispatchTable op).form with
    | op j =>
      rw [decode_of_form_op hf] at h
      cases h
      exact .inl ⟨rfl, rfl⟩
    | opImm8 mk =>
      match tail with
      | [] => simp [decode, hf] at h
      | n :: tail =>
        rw [decode_of_form_opImm8 hf] at h
        cases h
        exact .inr (.inl ⟨mk, n, rfl, rfl, rfl⟩)
    | opImm16 mk =>
      match tail with
      | [] => simp [decode, hf] at h
      | [_] => simp [decode, hf] at h
      | lo :: hi :: tail =>
        rw [decode_of_form_opImm16 hf] at h
        cases h
        exact .inr (.inr ⟨mk, lo, hi, rfl, rfl, rfl⟩)

end Formats

/-! ### Decoder and encoder -/

/-- A byte that R95 does not list is an instruction by itself (R96). -/
theorem decode_unknown {op : Byte} (h : (Instr.unknown op).wellFormed = true) (rest : List Byte) :
    decode (op :: rest) = .ok (.unknown op, rest) :=
  decode_of_form_op (by rw [dispatchTable_unknown h]; rfl) rest

theorem decode_encode {i : Instr} (h : i.wellFormed = true) (rest : List Byte) :
    decode (encode i ++ rest) = .ok (i, rest) := by
  cases i with
  | unknown op => exact decode_unknown h rest
  | jpNn nn =>
    calc decode (encode (.jpNn nn) ++ rest)
        = .ok (.jpNn (joinBytes (hiByte nn) (loByte nn)), rest) := rfl
      _ = .ok (.jpNn nn, rest) := by rw [joinBytes_hiByte_loByte]
  | nop | ldBn | ldCn | ldAn | ldAB | ldAC | addAB => rfl

theorem encode_of_decode_ok {bytes rest : List Byte} {i : Instr} (h : decode bytes = .ok (i, rest)) :
    i.wellFormed = true ∧ bytes = encode i ++ rest := by
  obtain ⟨op, ⟨hf, rfl⟩ | ⟨mk, n, hf, rfl, rfl⟩ | ⟨mk, lo, hi, hf, rfl, rfl⟩⟩ := eq_of_decode_ok h
  all_goals
    have henc := dispatchTable_form_encodesAs op
    rw [hf] at henc
  · obtain ⟨hwf, he⟩ := henc
    exact ⟨hwf, by rw [he]; rfl⟩
  · obtain ⟨hwf, he⟩ := henc n
    exact ⟨hwf, by rw [he]; rfl⟩
  · obtain ⟨hwf, he⟩ := henc lo hi
    exact ⟨hwf, by rw [he]; rfl⟩

/-- The opcode of a decoded instruction is the first byte (R90). -/
theorem opcode_of_decode_ok {op : Byte} {tail rest : List Byte} {i : Instr}
    (h : decode (op :: tail) = .ok (i, rest)) : i.opcode = op :=
  (List.cons.inj (encode_of_decode_ok h).2).1.symm

/-- Two bytes after the opcode are enough for every format, and the format fixes how many are consumed (R99). -/
theorem decode_three_bytes (op b1 b2 : Byte) (rest : List Byte) :
    ∃ i, decode (op :: b1 :: b2 :: rest) =
      .ok (i, (b1 :: b2 :: rest).drop (dispatchTable op).form.operandBytes) := by
  cases hf : (dispatchTable op).form with
  | op i => exact ⟨_, decode_of_form_op hf _⟩
  | opImm8 mk => exact ⟨_, decode_of_form_opImm8 hf b1 _⟩
  | opImm16 mk => exact ⟨_, decode_of_form_opImm16 hf b1 b2 rest⟩

theorem wellFormed_unknown_iff_notMem (op : Byte) :
    (Instr.unknown op).wellFormed = true ↔ op ∉ implementedOpcodes := by
  simp [Instr.wellFormed]

/-- The bytes R95 does not list are those of the seven ranges of R96. -/
theorem wellFormed_unknown_iff_ranges (op : Byte) :
    (Instr.unknown op).wellFormed = true ↔
      (0x01 ≤ op.toNat ∧ op.toNat ≤ 0x05) ∨ (0x07 ≤ op.toNat ∧ op.toNat ≤ 0x0D) ∨
      (0x0F ≤ op.toNat ∧ op.toNat ≤ 0x3D) ∨ (0x3F ≤ op.toNat ∧ op.toNat ≤ 0x77) ∨
      (0x7A ≤ op.toNat ∧ op.toNat ≤ 0x7F) ∨ (0x81 ≤ op.toNat ∧ op.toNat ≤ 0xC2) ∨
      (0xC4 ≤ op.toNat ∧ op.toNat ≤ 0xFF) := by
  have hlt := op.isLt
  rw [wellFormed_unknown_iff_notMem]
  simp only [implementedOpcodes, List.mem_cons, List.not_mem_nil, or_false, ← BitVec.toNat_inj, BitVec.toNat_ofNat]
  omega

/-! ### The statements -/

/-- Settles O15: the decoder's row for each constructor, with the two operand bytes of `JP nn` joined again. -/
theorem decodeGivesBackEncodedInstruction : Obligations.DecodeGivesBackEncodedInstruction :=
  fun _ rest h => decode_encode h rest

/-- Settles O16: the rows of the table agree with the encoder. -/
theorem decodedBytesAreTheEncoding : Obligations.DecodedBytesAreTheEncoding :=
  fun _ _ _ h => encode_of_decode_ok h

/-- Settles O17: the length of a descriptor is 1 plus the operand bytes of its format. -/
theorem everyByteSequenceDecodes : Obligations.EveryByteSequenceDecodes := by
  intro op b1 b2 rest
  obtain ⟨i, hi⟩ := decode_three_bytes op b1 b2 rest
  refine ⟨i, opcode_of_decode_ok hi, ?_⟩
  rw [hi, dispatchTable_length, Nat.add_comm 1, List.drop_succ_cons]

/-- Settles O18: what decodes is well-formed, and a well-formed unknown opcode has the unknown descriptor. -/
theorem unlistedBytesSelectUnknownDescriptor : Obligations.UnlistedBytesSelectUnknownDescriptor := by
  intro op rest
  rw [← wellFormed_unknown_iff_ranges]
  refine ⟨fun ⟨hdec, _, _⟩ => (encode_of_decode_ok hdec).1, fun hwf => ⟨decode_unknown hwf rest, ?_⟩⟩
  rw [dispatchTable_unknown hwf]
  exact ⟨rfl, rfl⟩

/-- Settles O19: the eight rows of R95, and one byte that R95 does not list. -/
theorem specWordsDecodeAsListed : Obligations.SpecWordsDecodeAsListed :=
  fun _ _ _ rest => ⟨rfl, rfl, rfl, rfl, rfl, rfl, rfl, rfl, decode_unknown (by decide) rest⟩

end Sys2Proof

/-! PROOFS. The execution cycle (40_execution_cycle.md): first what the fetch gives, then what a Step does to PC, the
counter and the record of its reads, then that a Step depends on the core of the state alone; the statements last. -/

namespace Sys2Proof.Machine

/-! ### The length of an instruction -/

/-- The lemmas of each constructor as one: an instruction is encoded in as many bytes as its descriptor says (R37). -/
theorem encode_length : ∀ i : Instr, Laws.EncodedLength.Statement i
  | .nop => Laws.EncodedLength.nop
  | .ldBn n => Laws.EncodedLength.ldBn n
  | .ldCn n => Laws.EncodedLength.ldCn n
  | .ldAn n => Laws.EncodedLength.ldAn n
  | .ldAB => Laws.EncodedLength.ldAB
  | .ldAC => Laws.EncodedLength.ldAC
  | .addAB => Laws.EncodedLength.addAB
  | .jpNn nn => Laws.EncodedLength.jpNn nn
  | .unknown op => Laws.EncodedLength.unknown op

/-- No instruction is longer than three bytes (R90). -/
theorem dispatchTable_length_le (op : Byte) : (dispatchTable op).length ≤ 3 := by
  rw [dispatchTable_length]
  cases (dispatchTable op).form <;> simp [Form.operandBytes]

theorem fetchAddresses_length (pc : Word) {n : Nat} (h : n ≤ 3) : (fetchAddresses pc n).length = n := by
  simpa [fetchAddresses] using h

/-- The `k`-th address of a fetch is `pc + k` (R118). -/
theorem fetchAddresses_getElem? (pc : Word) {n k : Nat} (hn : n ≤ 3) (hk : k < n) :
    (fetchAddresses pc n)[k]? = some (pc + BitVec.ofNat 16 k) := by
  rw [fetchAddresses, List.getElem?_take_of_lt hk]
  match k with
  | 0 => simp
  | 1 => rfl
  | 2 => rfl
  | k + 3 => omega

/-! ### The fetch and the decoder -/

/-- The fetch gives whatever the bytes at PC decode to. -/
theorem fetchInstr_fst_of_decode {s : State} {i : Instr} {rest : List Byte} (h : decode s.window = .ok (i, rest)) :
    (fetchInstr s).1 = i := by
  obtain ⟨rest', hfetch⟩ := fetchInstr_fst s
  rw [hfetch] at h
  cases h
  rfl

/-- On opcode 0xC3 the fetched instruction is the jump to the operand at PC + 1 and PC + 2, low byte first (R93). -/
theorem fetchInstr_fst_jpNn {s : State} (h : s.read s.pc = 0xC3#8) :
    (fetchInstr s).1 = .jpNn (joinBytes (s.read (s.pc + 2#16)) (s.read (s.pc + 1#16))) :=
  fetchInstr_fst_of_decode (rest := []) (by rw [State.window, h]; rfl)

/-! ### The cost of an instruction -/

/-- The timing table of R207. -/
def listedCost : Instr → Nat
  | .nop | .ldAB | .ldAC | .addAB | .unknown _ => 4
  | .ldAn _ | .ldBn _ | .ldCn _ => 8
  | .jpNn _ => 16

/-- Every meaning accrues and gives out the cost of its row (R116, R117, R207). -/
theorem afterExec_charges (i : Instr) (s : State) : Charges (listedCost i) s (afterExec i s) := by
  cases i with
  | ldBn n => exact ⟨congrArg (· + 8) (s.setReg_totalCycles .B n), rfl⟩
  | ldCn n => exact ⟨congrArg (· + 8) (s.setReg_totalCycles .C n), rfl⟩
  | ldAn n => exact ⟨congrArg (· + 8) (s.setReg_totalCycles .A n), rfl⟩
  | unknown op => exact ⟨congrArg (· + 4) (s.report_totalCycles op _), rfl⟩
  | nop | ldAB | ldAC | addAB | jpNn => exact ⟨rfl, rfl⟩

/-- Only `JP nn` writes PC (R114). -/
theorem afterExec_pc {i : Instr} (h : ∀ nn, i ≠ .jpNn nn) (s : State) : (afterExec i s).pc = s.pc := by
  cases i with
  | jpNn nn => exact absurd rfl (h nn)
  | unknown op => exact s.report_pc op _
  | nop | ldBn | ldCn | ldAn | ldAB | ldAC | addAB => rfl

/-! ### The Running Step -/

/-- A Running Step accrues and returns the cost of the descriptor that the byte at PC selects (R116, R117). -/
theorem afterStep_charges {s : State} (h : s.run = .running) :
    Charges (dispatchTable (s.read s.pc)).cycles s (afterStep s) := by
  have hcharge := afterExec_charges (fetchInstr s.beginStep).1 (fetchInstr s.beginStep).2
  rw [← afterStep_running h] at hcharge
  have hcost := hcharge.cost.symm.trans (afterStep_cost h)
  refine ⟨?_, afterStep_cost h⟩
  rw [hcharge.total, Option.some.inj hcost, fetchInstr_snd]
  rfl

/-- A Running Step reads the bytes of its instruction (R118). -/
theorem afterStep_reads {s : State} (h : s.run = .running) :
    (afterStep s).out.reads = fetchAddresses s.pc (dispatchTable (s.read s.pc)).length := by
  rw [afterStep_running h, (afterExec_onlyChanges _ _).reads, fetchInstr_snd]
  rfl

/-- PC after a Step on any opcode but that of `JP nn`: past the instruction (R114). -/
theorem afterStep_pc {s : State} (h : s.run = .running) (hop : s.read s.pc ≠ 0xC3#8) :
    (afterStep s).pc = s.pc + BitVec.ofNat 16 (dispatchTable (s.read s.pc)).length := by
  have hi : ∀ nn, (fetchInstr s.beginStep).1 ≠ .jpNn nn := fun nn hjp =>
    hop ((fetchInstr_opcode s.beginStep).symm.trans (congrArg Instr.opcode hjp))
  rw [afterStep_running h, afterExec_pc hi, fetchInstr_snd]
  rfl

/-- PC after a Step on the opcode of `JP nn`: the operand (R160). -/
theorem afterStep_pc_jpNn {s : State} (h : s.run = .running) (hop : s.read s.pc = 0xC3#8) :
    (afterStep s).pc = joinBytes (s.read (s.pc + 2#16)) (s.read (s.pc + 1#16)) := by
  rw [afterStep_running h, fetchInstr_fst_jpNn (s := s.beginStep) hop]
  rfl

theorem afterStep_totalCycles_bounds {s : State} (h : s.run = .running) :
    s.totalCycles + 4 ≤ (afterStep s).totalCycles ∧ (afterStep s).totalCycles ≤ s.totalCycles + 16 := by
  have hcycles := dispatchTable_cycles (s.read s.pc)
  rw [(afterStep_charges h).total]
  omega

theorem iterate_afterStep_running {s : State} (h : s.run = .running) (n : Nat) : (afterStep^[n] s).run = .running :=
  (iterate_afterStep_keptBySteps n s).run.trans h

/-- `n` Running Steps accrue at least 4 and at most 16 cycles each (R117). -/
theorem iterate_afterStep_totalCycles_bounds {s : State} (h : s.run = .running) (n : Nat) :
    s.totalCycles + 4 * n ≤ (afterStep^[n] s).totalCycles ∧
      (afterStep^[n] s).totalCycles ≤ s.totalCycles + 16 * n := by
  induction n with
  | zero => exact ⟨le_rfl, le_rfl⟩
  | succ n ih =>
    have hstep := afterStep_totalCycles_bounds (iterate_afterStep_running h n)
    rw [Function.iterate_succ_apply']
    omega

/-! ### Runs -/

/-- Every move goes on (R113, R120, R170). -/
theorem move_goesOn (m : Move) (s : State) : ∃ t, move m s = .next t := by
  cases m with
  | step => exact ⟨_, step_eq s⟩
  | host op => exact ⟨_, rfl⟩

theorem runMoves_goesOn (ms : List Move) (s : State) : ∃ t, runMoves ms s = .next t := by
  induction ms generalizing s with
  | nil => exact ⟨s, rfl⟩
  | cons m ms ih =>
    obtain ⟨t, ht⟩ := move_goesOn m s
    rw [runMoves, ht]
    exact ih t

/-! ### A Step depends on the core of the state alone

The counter, what a Step gives out, the policy and the draw counter are outside `State.coreOf`; below, each part of a
Step is the same from two states with one core. -/

/-- What a meaning does to the core is a function of the core. -/
theorem afterExec_coreOf (i : Instr) (s : State) : (afterExec i s).coreOf = (afterExec i s.coreOf).coreOf := by
  cases i with
  | unknown op =>
    -- Under either policy a report reaches `out` alone, which is no part of the core.
    have hreport : ∀ pc0, (s.report op pc0).coreOf = s.coreOf := fun pc0 => by
      unfold State.report
      split <;> rfl
    exact hreport (s.pc - 1#16)
  | nop | ldBn | ldCn | ldAn | ldAB | ldAC | addAB | jpNn => rfl

section SameCore

variable {s t : State} (h : s.coreOf = t.coreOf)
include h

theorem State.pc_eq_of_coreOf : s.pc = t.pc := (congrArg State.pc h :)

theorem State.run_eq_of_coreOf : s.run = t.run := (congrArg State.run h :)

theorem State.read_eq_of_coreOf (addr : Word) : s.read addr = t.read addr :=
  State.read_eq_of_mem (congrArg State.mem h) addr

theorem State.opcode_eq_of_coreOf : s.read s.pc = t.read t.pc := by
  rw [State.read_eq_of_coreOf h, State.pc_eq_of_coreOf h]

/-- The bytes at PC are the same, so the same instruction is fetched. -/
theorem fetchInstr_fst_eq_of_coreOf : (fetchInstr s).1 = (fetchInstr t).1 := by
  have hwindow : s.window = t.window := by
    simp only [State.window, State.read_eq_of_coreOf h, State.pc_eq_of_coreOf h]
  obtain ⟨rest, hfetch⟩ := fetchInstr_fst t
  exact fetchInstr_fst_of_decode (hwindow ▸ hfetch)

/-- The fetch moves PC as far in both. -/
theorem fetchInstr_snd_coreOf : (fetchInstr s).2.coreOf = (fetchInstr t).2.coreOf := by
  rw [fetchInstr_snd, fetchInstr_snd, State.opcode_eq_of_coreOf h]
  exact congrArg (fun u : State => u.setPc (u.pc + BitVec.ofNat 16 (dispatchTable (t.read t.pc)).length)) h

theorem afterStep_coreOf : (afterStep s).coreOf = (afterStep t).coreOf := by
  have hrun := State.run_eq_of_coreOf h
  cases hs : s.run with
  | halted => rwa [afterStep_halted hs, afterStep_halted (hrun.symm.trans hs)]
  | running =>
    have hbegin : s.beginStep.coreOf = t.beginStep.coreOf := h
    rw [afterStep_running hs, afterStep_running (hrun.symm.trans hs), fetchInstr_fst_eq_of_coreOf hbegin,
      afterExec_coreOf, fetchInstr_snd_coreOf hbegin, ← afterExec_coreOf]

/-- A Step returns the same cost and reads the same addresses from both. -/
theorem afterStep_out_eq_of_coreOf : (afterStep s).out.cost = (afterStep t).out.cost ∧
    (afterStep s).out.reads = (afterStep t).out.reads := by
  have hrun := State.run_eq_of_coreOf h
  cases hs : s.run with
  | halted =>
    rw [afterStep_halted hs, afterStep_halted (hrun.symm.trans hs)]
    exact ⟨rfl, rfl⟩
  | running =>
    have ht := hrun.symm.trans hs
    rw [afterStep_cost hs, afterStep_cost ht, afterStep_reads hs, afterStep_reads ht, State.opcode_eq_of_coreOf h,
      State.pc_eq_of_coreOf h]
    exact ⟨rfl, rfl⟩

/-- A Step makes both counters grow by the same amount, stated without subtraction. -/
theorem afterStep_totalCycles_eq_of_coreOf :
    (afterStep s).totalCycles + t.totalCycles = (afterStep t).totalCycles + s.totalCycles := by
  have hrun := State.run_eq_of_coreOf h
  cases hs : s.run with
  | halted =>
    rw [afterStep_halted hs, afterStep_halted (hrun.symm.trans hs)]
    exact Nat.add_comm _ _
  | running =>
    rw [(afterStep_charges hs).total, (afterStep_charges (hrun.symm.trans hs)).total, State.opcode_eq_of_coreOf h]
    omega

theorem iterate_afterStep_coreOf (n : Nat) : (afterStep^[n] s).coreOf = (afterStep^[n] t).coreOf := by
  induction n with
  | zero => exact h
  | succ n ih =>
    rw [Function.iterate_succ_apply', Function.iterate_succ_apply']
    exact afterStep_coreOf ih

theorem iterate_afterStep_totalCycles_eq_of_coreOf (n : Nat) :
    (afterStep^[n] s).totalCycles + t.totalCycles = (afterStep^[n] t).totalCycles + s.totalCycles := by
  induction n with
  | zero => exact Nat.add_comm _ _
  | succ n ih =>
    have hstep := afterStep_totalCycles_eq_of_coreOf (iterate_afterStep_coreOf h n)
    rw [Function.iterate_succ_apply', Function.iterate_succ_apply']
    omega

/-- After at least one Step, the last of them has given out the same cost and reads. -/
theorem iterate_afterStep_out_eq_of_coreOf {n : Nat} (hn : 0 < n) :
    (afterStep^[n] s).out.cost = (afterStep^[n] t).out.cost ∧
      (afterStep^[n] s).out.reads = (afterStep^[n] t).out.reads := by
  obtain ⟨m, rfl⟩ := Nat.exists_eq_succ_of_ne_zero hn.ne'
  rw [Function.iterate_succ_apply', Function.iterate_succ_apply']
  exact afterStep_out_eq_of_coreOf (iterate_afterStep_coreOf h m)

end SameCore

/-! ### The statements -/

/-- Settles O49: two runs from one core keep one core, by induction on the number of Steps. -/
theorem diagnosticsNeverInfluenceExecution : Obligations.DiagnosticsNeverInfluenceExecution :=
  fun n s t h => ⟨_, _, core_run_eq n s, core_run_eq n t, iterate_afterStep_coreOf h n,
    iterate_afterStep_totalCycles_eq_of_coreOf h n, iterate_afterStep_out_eq_of_coreOf h⟩

/-- Settles O23: every Step and every host operation goes on. -/
theorem everyRunGoesOn : Obligations.EveryRunGoesOn :=
  ⟨fun s => ⟨_, step_eq s⟩, runMoves_goesOn⟩

/-- Settles O24. -/
theorem stepReturnsTheDescriptorCost : Obligations.StepReturnsTheDescriptorCost :=
  fun s hrun => ⟨_, step_eq s, afterStep_cost hrun, dispatchTable_cycles _⟩

/-- Settles O26: the fetches move PC past the instruction, and `JP nn` alone overwrites it. -/
theorem pcAfterStepIsPastTheInstruction : Obligations.PcAfterStepIsPastTheInstruction := by
  refine fun s hrun => ⟨_, step_eq s, fun hop => ?_, fun hop => ?_⟩
  · have hlen := dispatchTable_length_le (s.read s.pc)
    rw [afterStep_pc hrun hop, BitVec.toNat_add, BitVec.toNat_ofNat]
    omega
  · rw [afterStep_pc_jpNn hrun hop, joinBytes_toNat]

/-- Settles O27: the reads are the fetched addresses, and no Step writes memory. -/
theorem stepReadsItsBytesInOrder : Obligations.StepReadsItsBytesInOrder := by
  intro s hrun
  have hle := dispatchTable_length_le (s.read s.pc)
  refine ⟨_, step_eq s, ?_, fun k hk => ?_, State.read_eq_of_mem (afterStep_keptBySteps s).mem⟩
  · rw [afterStep_reads hrun, fetchAddresses_length _ hle]
  · rw [afterStep_reads hrun] at hk ⊢
    rw [fetchAddresses_length _ hle] at hk
    exact fetchAddresses_getElem? _ hle hk

/-- Settles O50, by induction on the number of Steps. -/
theorem stepsAccrueBoundedCycles : Obligations.StepsAccrueBoundedCycles :=
  fun n s hrun => ⟨_, core_run_eq n s, iterate_afterStep_running hrun n, iterate_afterStep_totalCycles_bounds hrun n⟩

/-- Settles O20. -/
theorem fetchReadsAtPcAndAdvances : Obligations.FetchReadsAtPcAndAdvances := by
  intro s
  rw [fetch16_eq]
  exact ⟨rfl, BitVec.toNat_add _ _, rfl, joinBytes_toNat _ _, BitVec.toNat_add _ _, rfl⟩

/-- Settles O21: the fetch agrees with the decoder, and the descriptor's length with the encoding's. -/
theorem stepRunsTheDecodedInstruction : Obligations.StepRunsTheDecodedInstruction := by
  intro s i rest hrun hdec
  have hlen : (dispatchTable (s.read s.pc)).length = (encode i).length := by
    rw [← opcode_of_decode_ok hdec, (encode_length i (encode_of_decode_ok hdec).1).1]
  have hfst : (fetchInstr s.beginStep).1 = i := fetchInstr_fst_of_decode hdec
  rw [step_running hrun, hfst, fetchInstr_snd, ← hlen]
  rfl

/-- Settles O22. -/
theorem haltedStepOnlyReturnsFour : Obligations.HaltedStepOnlyReturnsFour := by
  intro s hrun
  refine ⟨_, (step_halted hrun).trans (haltedStep_eq s), rfl, rfl, rfl, rfl, rfl, fun r => ?_, fun _ => rfl, rfl⟩
  cases r <;> rfl

/-- Settles O25: the model's costs are those of the timing table. -/
theorem everyInstructionAccruesItsCost : Obligations.EveryInstructionAccruesItsCost := by
  refine fun i s => ⟨_, exec_eq i s, _, afterExec_charges i s, ?_⟩
  cases i <;> rfl

end Sys2Proof.Machine

/-! PROOFS. `NOP` and the unknown opcodes (41_nop_and_unknown.md): first the Step at an opcode without operands, then the
event a meaning and a Step give out, then that the policy reaches the event alone; the statements last. -/

namespace Sys2Proof.Machine

open Sys2Proof.Config

/-! ### The Step at an opcode of format `op` -/

/-- Where the opcode at PC stands alone, the fetch is one `Fetch8` (R91, R113). -/
theorem fetchInstr_of_form_op {s : State} {i : Instr} (h : (dispatchTable (s.read s.pc)).form = .op i) :
    fetchInstr s = (i, (fetch8 s).2) := by
  unfold fetchInstr
  simp only [fetch8_fst, h]
  rfl

/-- A Running Step at an opcode that stands alone is its meaning after one `Fetch8` (R91, R113). -/
theorem step_of_form_op {s : State} {i : Instr} (hrun : s.run = .running)
    (h : (dispatchTable (s.read s.pc)).form = .op i) : step s = exec i (fetch8 s.beginStep).2 := by
  rw [step_running hrun, fetchInstr_of_form_op (s := s.beginStep) h]

/-! ### The event -/

/-- Only an unknown opcode reports (R132). -/
theorem afterExec_event {i : Instr} (h : ∀ op, i ≠ .unknown op) (s : State) :
    (afterExec i s).out.event = s.out.event := by
  cases i with
  | unknown op => exact absurd rfl (h op)
  | nop | ldBn | ldCn | ldAn | ldAB | ldAC | addAB | jpNn => rfl

/-- What an unknown opcode reports: itself and the address before PC, under `NopReport` (R132). -/
theorem afterExec_unknown_event (op : Byte) (s : State) : (afterExec (.unknown op) s).out.event =
    if s.policy = .nopReport then some ⟨op, s.pc - 1#16⟩ else s.out.event :=
  s.report_event op (s.pc - 1#16)

/-- The fetch gives an unknown opcode only where the byte at PC is one that R95 does not list (R96). -/
theorem fetchInstr_ne_unknown {s : State} (h : ¬ (Instr.unknown (s.read s.pc)).wellFormed = true) (op : Byte) :
    (fetchInstr s).1 ≠ .unknown op := by
  intro hi
  have hop : op = s.read s.pc := by rw [← fetchInstr_opcode, hi]; rfl
  exact h (by rw [← hop, ← hi]; exact fetchInstr_wellFormed s)

/-- What a Running Step reports: the byte at PC and PC, under `NopReport` at an unknown opcode (R132). -/
theorem afterStep_event {s : State} (h : s.run = .running) : (afterStep s).out.event =
    if s.policy = .nopReport ∧ (Instr.unknown (s.read s.pc)).wellFormed = true then some ⟨s.read s.pc, s.pc⟩
    else none := by
  rw [afterStep_running h]
  by_cases hwf : (Instr.unknown (s.read s.pc)).wellFormed = true
  · have hpc0 : (fetch8 s.beginStep).2.pc - 1#16 = s.pc := BitVec.add_sub_cancel s.pc 1#16
    rw [fetchInstr_unknown (s := s.beginStep) hwf, afterExec_unknown_event, hpc0]
    exact if_congr (and_iff_left hwf).symm rfl rfl
  · rw [afterExec_event (fetchInstr_ne_unknown (s := s.beginStep) hwf), fetchInstr_snd, if_neg fun hc => hwf hc.2]
    rfl

/-! ### The policy -/

/-- A state is its core and the four fields outside it. -/
theorem State.eq_of_coreOf_eq {s t : State} (hcore : s.coreOf = t.coreOf) (htotal : s.totalCycles = t.totalCycles)
    (hout : s.out = t.out) (hpolicy : s.policy = t.policy) (hloads : s.failedLoads = t.failedLoads) : s = t :=
  calc s = { s.coreOf with
        totalCycles := s.totalCycles, out := s.out, policy := s.policy, failedLoads := s.failedLoads } := rfl
    _ = { t.coreOf with
        totalCycles := t.totalCycles, out := t.out, policy := t.policy, failedLoads := t.failedLoads } := by
      rw [hcore, htotal, hout, hpolicy, hloads]
    _ = t := rfl

/-- The policy is outside the core, so a Step under another policy differs in the policy and the event alone (R132). -/
theorem afterStep_withPolicy (s : State) (policy : UnknownPolicy) :
    { afterStep { s with policy := policy } with
      policy := (afterStep s).policy,
      out := { (afterStep { s with policy := policy }).out with event := (afterStep s).out.event } } =
    afterStep s := by
  have hsame : State.coreOf { s with policy := policy } = s.coreOf := rfl
  obtain ⟨hcost, hreads⟩ := afterStep_out_eq_of_coreOf hsame
  refine State.eq_of_coreOf_eq (afterStep_coreOf hsame)
    (Nat.add_right_cancel (afterStep_totalCycles_eq_of_coreOf hsame)) ?_ rfl ?_
  · exact congrArg₂ (StepOutput.mk · · (afterStep s).out.event) hcost hreads
  · exact (afterStep_keptBySteps { s with policy := policy }).failedLoads.trans (afterStep_keptBySteps s).failedLoads.symm

/-! ### The statements -/

/-- Settles O28: the report of a Running Step, then that a Step under another policy has the same core. -/
theorem onlyUnknownOpcodesAreReported : Obligations.OnlyUnknownOpcodesAreReported :=
  fun s hrun => ⟨_, step_eq s, afterStep_event hrun, fun policy => ⟨_, step_eq _, afterStep_withPolicy s policy⟩⟩

/-- Settles O31: `NOP` writes no register, is no jump and no unknown opcode. -/
theorem nopHasNoEffect : Obligations.NopHasNoEffect :=
  ⟨fun s => ⟨_, exec_eq .nop s, afterExec_onlyChanges .nop s, afterExec_pc (i := .nop) nofun s,
      afterExec_event (i := .nop) nofun s, afterExec_charges .nop s⟩,
    fun _ hrun hop => step_of_form_op hrun (by rw [hop]; rfl)⟩

/-- Settles O32: an unknown opcode writes no register and is no jump; its report is silent under `Nop`. -/
theorem unknownOpcodeHasNoEffect : Obligations.UnknownOpcodeHasNoEffect := by
  refine ⟨fun op s => ⟨_, exec_eq (.unknown op) s, afterExec_onlyChanges (.unknown op) s,
      afterExec_pc (i := .unknown op) nofun s, fun hpolicy => ?_, afterExec_charges (.unknown op) s⟩,
    fun _ hrun hwf => step_of_form_op hrun (by rw [dispatchTable_unknown hwf]; rfl)⟩
  rw [afterExec_unknown_event, hpolicy, if_neg (by decide)]

end Sys2Proof.Machine

/-! PROOFS. The five 8-bit loads (42_loads.md): first the Step at an opcode with one operand byte, then what a load
writes and what it leaves alone, once for all five; the statements last. -/

namespace Sys2Proof.Machine

/-! ### The Step at an opcode of format `op_imm8` -/

/-- Where one operand byte follows the opcode at PC, the fetch is two `Fetch8` (R92, R113). -/
theorem fetchInstr_of_form_opImm8 {s : State} {mk : Byte → Instr}
    (h : (dispatchTable (s.read s.pc)).form = .opImm8 mk) :
    fetchInstr s = (mk (fetch8 (fetch8 s).2).1, (fetch8 (fetch8 s).2).2) := by
  unfold fetchInstr
  simp only [fetch8_fst, h]
  rfl

/-- A Running Step at an opcode with one operand byte is its meaning after two `Fetch8` (R92, R113). -/
theorem step_of_form_opImm8 {s : State} {mk : Byte → Instr} (hrun : s.run = .running)
    (h : (dispatchTable (s.read s.pc)).form = .opImm8 mk) :
    step s = exec (mk (fetch8 (fetch8 s.beginStep).2).1) (fetch8 (fetch8 s.beginStep).2).2 := by
  rw [step_running hrun, fetchInstr_of_form_opImm8 (s := s.beginStep) h]

/-! ### The loads -/

/-- The loads with their destination and the value each writes there from the state (R140 to R144). -/
inductive LoadsInto : Instr → Reg8 → (State → Byte) → Prop where
  | ldAn (n : Byte) : LoadsInto (.ldAn n) .A fun _ => n
  | ldBn (n : Byte) : LoadsInto (.ldBn n) .B fun _ => n
  | ldCn (n : Byte) : LoadsInto (.ldCn n) .C fun _ => n
  | ldAB : LoadsInto .ldAB .A fun s => s.getReg .B
  | ldAC : LoadsInto .ldAC .A fun s => s.getReg .C

namespace LoadsInto

variable {i : Instr} {r : Reg8} {v : State → Byte} (h : LoadsInto i r v)
include h

theorem writesOf_eq : writesOf i = [r] := by cases h <;> rfl

theorem ne_jpNn (nn : Word) : i ≠ .jpNn nn := by cases h <;> nofun

theorem ne_unknown (op : Byte) : i ≠ .unknown op := by cases h <;> nofun

theorem getReg_afterExec (s : State) : (afterExec i s).getReg r = v s := by cases h <;> rfl

theorem onlyChanges (s : State) : OnlyChanges [r] s (afterExec i s) :=
  h.writesOf_eq ▸ afterExec_onlyChanges i s

/-- A load writes its destination, stays in its frame, leaves PC past the instruction, reports nothing and returns its
cost (R140 to R145). -/
theorem afterExec_effect (s : State) :
    (afterExec i s).getReg r = v s ∧ OnlyChanges [r] s (afterExec i s) ∧ (afterExec i s).pc = s.pc ∧
      (afterExec i s).out.event = s.out.event ∧ (afterExec i s).out.cost = some (listedCost i) :=
  ⟨h.getReg_afterExec s, h.onlyChanges s, afterExec_pc h.ne_jpNn s, afterExec_event h.ne_unknown s,
    (afterExec_charges i s).cost⟩

end LoadsInto

/-! ### The statements -/

/-- Settles O33. -/
theorem ldAnLoadsTheImmediate : Obligations.LdAnLoadsTheImmediate :=
  ⟨fun n s => ⟨_, exec_eq _ s, (LoadsInto.ldAn n).afterExec_effect s⟩,
    fun _ hrun hop => step_of_form_opImm8 hrun (by rw [hop]; rfl)⟩

/-- Settles O34: BC joins the new B with the C that the frame keeps. -/
theorem ldBnLoadsTheImmediate : Obligations.LdBnLoadsTheImmediate := by
  refine ⟨fun n s => ?_, fun _ hrun hop => step_of_form_opImm8 hrun (by rw [hop]; rfl)⟩
  obtain ⟨hval, hframe, hrest⟩ := (LoadsInto.ldBn n).afterExec_effect s
  have hC : (afterExec (.ldBn n) s).getReg .C = s.getReg .C := hframe.regs .C (by decide)
  exact ⟨_, exec_eq _ s, hval, congrArg₂ joinBytes hval hC, hframe, hrest⟩

/-- Settles O35: the carry flag is a bit of F, which is in the frame. -/
theorem ldCnLoadsTheImmediate : Obligations.LdCnLoadsTheImmediate := by
  refine ⟨fun n s => ?_, fun _ hrun hop => step_of_form_opImm8 hrun (by rw [hop]; rfl)⟩
  obtain ⟨hval, hframe, hrest⟩ := (LoadsInto.ldCn n).afterExec_effect s
  exact ⟨_, exec_eq _ s, hval, hframe.flags (by decide) .C, hframe, hrest⟩

/-- Settles O36: the source B is in the frame. -/
theorem ldABCopiesBIntoA : Obligations.LdABCopiesBIntoA := by
  refine ⟨fun s => ?_, fun _ hrun hop => step_of_form_op hrun (by rw [hop]; rfl)⟩
  obtain ⟨hval, hframe, hrest⟩ := LoadsInto.ldAB.afterExec_effect s
  exact ⟨_, exec_eq _ s, hval, hframe.regs .B (by decide), hframe, hrest⟩

/-- Settles O37: the source C is in the frame. -/
theorem ldACCopiesCIntoA : Obligations.LdACCopiesCIntoA := by
  refine ⟨fun s => ?_, fun _ hrun hop => step_of_form_op hrun (by rw [hop]; rfl)⟩
  obtain ⟨hval, hframe, hrest⟩ := LoadsInto.ldAC.afterExec_effect s
  exact ⟨_, exec_eq _ s, hval, hframe.regs .C (by decide), hframe, hrest⟩

end Sys2Proof.Machine

/-! PROOFS. `ADD A,B` (43_arithmetic.md): first the add unit by itself, then the registers and flags the instruction
leaves; the statements last. -/

namespace Sys2Proof.Machine

/-! ### The add unit -/

section AddUnit
variable (a b : Byte)

/-- The mask of the spec's `a&0xF` is the remainder modulo 16. -/
theorem and_0F_toNat : (a &&& 0x0F#8).toNat = a.toNat % 16 := by
  rw [BitVec.toNat_and]
  exact Nat.and_two_pow_sub_one_eq_mod a.toNat 4

theorem add8_r_toNat : (add8 a b).r.toNat = (a.toNat + b.toNat) % 256 := BitVec.toNat_ofNat _ 8

theorem add8_z : (add8 a b).z = decide ((add8 a b).r = 0x00#8) := rfl

theorem add8_n : (add8 a b).n = false := rfl

theorem add8_h : (add8 a b).h = decide (a.toNat % 16 + b.toNat % 16 > 15) := by
  rw [← and_0F_toNat a, ← and_0F_toNat b]
  rfl

theorem add8_c : (add8 a b).c = decide (a.toNat + b.toNat > 255) := rfl

/-- Z in exact naturals: the low byte of the sum is zero when the sum is a multiple of 256 (R151). -/
theorem add8_z_iff : (add8 a b).z = true ↔ (a.toNat + b.toNat) % 256 = 0 := by
  rw [add8_z, decide_eq_true_iff, ← BitVec.toNat_inj, add8_r_toNat]
  rfl

end AddUnit

/-! ### The instruction -/

section AddAB
variable (s : State)

theorem afterExec_addAB_A : (afterExec .addAB s).getReg .A = (add8 (s.getReg .A) (s.getReg .B)).r := rfl

theorem afterExec_addAB_flags :
    (afterExec .addAB s).flag .Z = (add8 (s.getReg .A) (s.getReg .B)).z ∧
    (afterExec .addAB s).flag .N = (add8 (s.getReg .A) (s.getReg .B)).n ∧
    (afterExec .addAB s).flag .H = (add8 (s.getReg .A) (s.getReg .B)).h ∧
    (afterExec .addAB s).flag .C = (add8 (s.getReg .A) (s.getReg .B)).c :=
  (s.setReg .A (add8 (s.getReg .A) (s.getReg .B)).r).flag_setFlags _ _ _ _

/-- F is what `SetFlags` makes of the four flags: nothing of the old F is left (R26, R150). -/
theorem afterExec_addAB_F : (afterExec .addAB s).getReg .F =
    (s.setFlags ((afterExec .addAB s).flag .Z) ((afterExec .addAB s).flag .N) ((afterExec .addAB s).flag .H)
      ((afterExec .addAB s).flag .C)).getReg .F := by
  obtain ⟨hz, hn, hh, hc⟩ := afterExec_addAB_flags s
  rw [hz, hn, hh, hc]
  rfl

theorem afterExec_addAB_flagsLow : (afterExec .addAB s).getReg .F &&& 0x0F#8 = 0x00#8 := masked_low _

end AddAB

/-! ### The statements -/

/-- Settles O38. -/
theorem add8ComputesSumAndFlags : Obligations.Add8ComputesSumAndFlags := by
  refine fun a b => ⟨add8_r_toNat a b, add8_z_iff a b, add8_n a b, ?_, ?_⟩
  · rw [add8_h, decide_eq_true_iff]
  · rw [add8_c, decide_eq_true_iff]

/-- Settles O39: A and the flags are those of the add unit on the old A and B; the rest is the frame of R28. -/
theorem addABWritesSumAndAllFlags : Obligations.AddABWritesSumAndAllFlags := by
  refine ⟨fun s => ⟨_, exec_eq .addAB s, ?_⟩, fun _ hrun hop => step_of_form_op hrun (by rw [hop]; rfl)⟩
  have hframe : OnlyChanges [.A, .F] s (afterExec .addAB s) := afterExec_onlyChanges .addAB s
  obtain ⟨hz, hn, hh, hc⟩ := afterExec_addAB_flags s
  exact ⟨(congrArg BitVec.toNat (afterExec_addAB_A s)).trans (add8_r_toNat _ _), hz.trans (add8_z _ _),
    hn.trans (add8_n _ _), hh.trans (add8_h _ _), hc.trans (add8_c _ _), afterExec_addAB_F s,
    afterExec_addAB_flagsLow s, hframe.regs .B (by decide), hframe, afterExec_pc (i := .addAB) nofun s,
    afterExec_event (i := .addAB) nofun s, (afterExec_charges .addAB s).cost⟩

end Sys2Proof.Machine

/-! PROOFS. The control transfer `JP nn` (44_control.md): first the Step at an opcode with two operand bytes, then PC
after the jump; the statement last. -/

namespace Sys2Proof.Machine

/-! ### The Step at an opcode of format `op_imm16` -/

/-- Where two operand bytes follow the opcode at PC, the fetch is `Fetch8` and then `Fetch16` (R93, R113). -/
theorem fetchInstr_of_form_opImm16 {s : State} {mk : Word → Instr}
    (h : (dispatchTable (s.read s.pc)).form = .opImm16 mk) :
    fetchInstr s = (mk (fetch16 (fetch8 s).2).1, (fetch16 (fetch8 s).2).2) := by
  unfold fetchInstr
  simp only [fetch8_fst, h]
  rfl

/-- A Running Step at an opcode with two operand bytes is its meaning after `Fetch8` and `Fetch16` (R93, R113). -/
theorem step_of_form_opImm16 {s : State} {mk : Word → Instr} (hrun : s.run = .running)
    (h : (dispatchTable (s.read s.pc)).form = .opImm16 mk) :
    step s = exec (mk (fetch16 (fetch8 s.beginStep).2).1) (fetch16 (fetch8 s.beginStep).2).2 := by
  rw [step_running hrun, fetchInstr_of_form_opImm16 (s := s.beginStep) h]

/-! ### The jump -/

/-- The jump overwrites PC, whatever the fetches left there (R160, conflict C2). -/
theorem afterExec_jpNn_pc (nn : Word) (s : State) : (afterExec (.jpNn nn) s).pc = nn := rfl

/-! ### The statement -/

/-- Settles O40: `JP nn` writes PC and no register, reports nothing, and its opcode asks for two operand bytes. -/
theorem jpNnSetsPcToTheOperand : Obligations.JpNnSetsPcToTheOperand :=
  ⟨fun nn s => ⟨_, exec_eq (.jpNn nn) s, afterExec_jpNn_pc nn s, afterExec_onlyChanges (.jpNn nn) s,
      afterExec_event (i := .jpNn nn) nofun s, (afterExec_charges (.jpNn nn) s).cost⟩,
    fun _ hrun hop => step_of_form_opImm16 hrun (by rw [hop]; rfl)⟩

end Sys2Proof.Machine

/-! PROOFS. The machine after reset meets the invariant (10_state.md R24, R41). -/

namespace Sys2Proof.Machine

open Sys2Proof.Config

/-- The list with no key, the memory after reset (log entry 1), is in canonical form. -/
theorem Memory.wf_nil : Memory.wf [] = true := rfl

/-- `State.construct_inv` for a memory that need not come from `Memory.ofFn`, as that of reset does not. -/
theorem State.construct_inv_of_wf (regs : InitRegs) {mem : Memory} (policy : UnknownPolicy)
    (hmem : Memory.wf mem = true) : (State.construct regs mem policy).Inv where
  flagsLow := State.construct_flagsLow regs mem policy
  memory := by rwa [State.construct_mem]

/-- Settles O44: reset is the construction under `Zeroed` over the memory that lists nothing. -/
theorem resetMeetsInvariant : Obligations.ResetMeetsInvariant :=
  State.construct_inv_of_wf .zeroed .nop Memory.wf_nil

end Sys2Proof.Machine
